-- ==== Sys2Proof/Word.lean ====
section
/-! DEFINITION. The two word types of the engine: the byte (registers, memory cells, operands, immediates) and the
9-bit program counter. -/

namespace Sys2Proof

/-- An unsigned byte, a value in [0,255] (spec/00_scope.md R5; registers, cells and operands are all bytes). -/
abbrev Byte := BitVec 8

/-- The program counter's 9 bits, values 0..511 (spec/10_state.md R15). -/
abbrev PcWord := BitVec 9

end Sys2Proof
end

