-- ==== Sys2Proof/Syntax.lean ====
section
/-! DEFINITION. The 20 instructions of spec/30_encoding.md R56 (one constructor per row of spec/opcode_table.json), with
their operand bytes. -/

namespace Sys2Proof

/-- One instruction. A register operand is the WHOLE operand byte (spec/30_encoding.md R53): a value above 7 is a runtime
fault of the instruction, not another instruction (R59), so it can be written here and is decoded; `Instr.wellFormed` tells
the two apart. `a` is the first operand byte (the spec's opa), `b` or `imm` the second (opb). -/
inductive Instr where
  /-- HLT (R76) -/
  | hlt
  /-- LDI Ra, imm (R85) -/
  | ldi (a imm : Byte)
  /-- PRN Ra (R86) -/
  | prn (a : Byte)
  /-- ADD Ra, Rb (R91) -/
  | add (a b : Byte)
  /-- MUL Ra, Rb (R92) -/
  | mul (a b : Byte)
  /-- CMP Ra, Rb (R93) -/
  | cmp (a b : Byte)
  /-- PUSH Ra (R111) -/
  | push (a : Byte)
  /-- POP Ra (R112) -/
  | pop (a : Byte)
  /-- CALL Ra (R116) -/
  | call (a : Byte)
  /-- RET (R117) -/
  | ret
  /-- JMP Ra (R118) -/
  | jmp (a : Byte)
  /-- JEQ Ra (R119) -/
  | jeq (a : Byte)
  /-- JNE Ra (R120) -/
  | jne (a : Byte)
  /-- AND Ra, Rb (R94) -/
  | and (a b : Byte)
  /-- OR Ra, Rb (R95) -/
  | or (a b : Byte)
  /-- XOR Ra, Rb (R96) -/
  | xor (a b : Byte)
  /-- NOT Ra, one operand byte only (R97, C6) -/
  | not (a : Byte)
  /-- SHL Ra, Rb (R98) -/
  | shl (a b : Byte)
  /-- SHR Ra, Rb (R99) -/
  | shr (a b : Byte)
  /-- MOD Ra, Rb (R100) -/
  | mod (a b : Byte)
deriving DecidableEq, Repr

end Sys2Proof
end

