-- ==== Sys2Proof/Decode.lean ====
section
/-! DEFINITION. Instruction encoding and decoding (spec/30_encoding.md): the opcode map, the formats, a decoder total on
any bytes that rejects by name, the encoder, and the table-word reader the host asks with. -/

namespace Sys2Proof

/-- The 20 mnemonics of R56. -/
inductive Opcode where
  | hlt | ldi | prn | add | mul | cmp | push | pop | call | ret
  | jmp | jeq | jne | and | or | xor | not | shl | shr | mod
deriving DecidableEq, Repr

/-- The four formats of R50, each with the instruction its operand bytes complete. -/
inductive Format where
  /-- OP0: the opcode byte alone -/
  | op0 (i : Instr)
  /-- OP1R: one register operand at pc + 1 -/
  | op1r (mk : Byte → Instr)
  /-- OP2RR: register operands at pc + 1 and pc + 2 -/
  | op2rr (mk : Byte → Byte → Instr)
  /-- OP2RI: a register operand at pc + 1 and an immediate at pc + 2 -/
  | op2ri (mk : Byte → Byte → Instr)

/-- The number of operand bytes (R51). The length of the instruction is one more. -/
def Format.nops : Format → Nat
  | .op0 _ => 0
  | .op1r _ => 1
  | .op2rr _ => 2
  | .op2ri _ => 2

/-- The format of each row of R56. NOT has one operand (C6); only LDI has an immediate (R54). -/
def Opcode.format : Opcode → Format
  | .hlt => .op0 .hlt
  | .ldi => .op2ri .ldi
  | .prn => .op1r .prn
  | .add => .op2rr .add
  | .mul => .op2rr .mul
  | .cmp => .op2rr .cmp
  | .push => .op1r .push
  | .pop => .op1r .pop
  | .call => .op1r .call
  | .ret => .op0 .ret
  | .jmp => .op1r .jmp
  | .jeq => .op1r .jeq
  | .jne => .op1r .jne
  | .and => .op2rr .and
  | .or => .op2rr .or
  | .xor => .op2rr .xor
  | .not => .op1r .not
  | .shl => .op2rr .shl
  | .shr => .op2rr .shr
  | .mod => .op2rr .mod

/-- The rows of R56 in the table's order. -/
def Opcode.all : List Opcode :=
  [.hlt, .ldi, .prn, .add, .mul, .cmp, .push, .pop, .call, .ret,
   .jmp, .jeq, .jne, .and, .or, .xor, .not, .shl, .shr, .mod]

/-- A value of the parameter OPMAP (spec/00_scope.md R4): an opcode byte for each mnemonic. -/
abbrev OpMap := Opcode → Byte

/-- The opcode map of R56. UNVERIFIED: the spec's source gives no opcode values and its decision D1 supplies them from general
knowledge (unsafe, log entry 1). -/
def opMap : OpMap
  | .hlt => 0b00000001
  | .ldi => 0b10000010
  | .prn => 0b01000111
  | .add => 0b10100000
  | .mul => 0b10100010
  | .cmp => 0b10100111
  | .push => 0b01000101
  | .pop => 0b01000110
  | .call => 0b01010000
  | .ret => 0b00010001
  | .jmp => 0b01010100
  | .jeq => 0b01010101
  | .jne => 0b01010110
  | .and => 0b10101000
  | .or => 0b10101010
  | .xor => 0b10101011
  | .not => 0b01101001
  | .shl => 0b10101100
  | .shr => 0b10101101
  | .mod => 0b10100100

/-- The row an opcode byte selects under a map: equality of all 8 bits (R57). -/
def lookupWith (m : OpMap) (b : Byte) : Option Opcode :=
  Opcode.all.find? (fun o => m o == b)

/-- The row an opcode byte selects; none for an unrecognised opcode (R57, R58). -/
def lookup (b : Byte) : Option Opcode := lookupWith opMap b

/-- Why bytes are no instruction. -/
inductive DecodeError where
  /-- there is no opcode byte -/
  | noOpcode
  /-- the opcode byte is in no row of R56 (R58) -/
  | unknownOpcode (b : Byte)
  /-- operand byte k (1 or 2) is missing (R52) -/
  | missingOperand (k : Nat)
deriving DecidableEq, Repr

/-- Operand assembly (R52): each operand is one whole byte, taken only if the format has it. Answers the instruction and
the bytes after it. -/
def takeOperands (f : Format) (bs : List Byte) : Except DecodeError (Instr × List Byte) :=
  match f, bs with
  | .op0 i, rest => .ok (i, rest)
  | .op1r mk, a :: rest => .ok (mk a, rest)
  | .op1r _, [] => .error (.missingOperand 1)
  | .op2rr mk, a :: b :: rest => .ok (mk a b, rest)
  | .op2rr _, [_] => .error (.missingOperand 2)
  | .op2rr _, [] => .error (.missingOperand 1)
  | .op2ri mk, a :: b :: rest => .ok (mk a b, rest)
  | .op2ri _, [_] => .error (.missingOperand 2)
  | .op2ri _, [] => .error (.missingOperand 1)

/-- Decoding under an opcode map, total on any bytes (R57, R60). -/
def decodeWith (m : OpMap) (bs : List Byte) : Except DecodeError (Instr × List Byte) :=
  match bs with
  | [] => .error .noOpcode
  | b :: rest =>
    match lookupWith m b with
    | none => .error (.unknownOpcode b)
    | some o => takeOperands o.format rest

/-- Decoding with the map of R56. -/
def decode (bs : List Byte) : Except DecodeError (Instr × List Byte) := decodeWith opMap bs

/-- The row of R56 an instruction belongs to. -/
def Instr.opcode : Instr → Opcode
  | .hlt => .hlt
  | .ldi _ _ => .ldi
  | .prn _ => .prn
  | .add _ _ => .add
  | .mul _ _ => .mul
  | .cmp _ _ => .cmp
  | .push _ => .push
  | .pop _ => .pop
  | .call _ => .call
  | .ret => .ret
  | .jmp _ => .jmp
  | .jeq _ => .jeq
  | .jne _ => .jne
  | .and _ _ => .and
  | .or _ _ => .or
  | .xor _ _ => .xor
  | .not _ => .not
  | .shl _ _ => .shl
  | .shr _ _ => .shr
  | .mod _ _ => .mod

/-- The operand bytes, first at the lower address (spec/20_memory.md R33). -/
def Instr.operands : Instr → List Byte
  | .hlt => []
  | .ldi a imm => [a, imm]
  | .prn a => [a]
  | .add a b => [a, b]
  | .mul a b => [a, b]
  | .cmp a b => [a, b]
  | .push a => [a]
  | .pop a => [a]
  | .call a => [a]
  | .ret => []
  | .jmp a => [a]
  | .jeq a => [a]
  | .jne a => [a]
  | .and a b => [a, b]
  | .or a b => [a, b]
  | .xor a b => [a, b]
  | .not a => [a]
  | .shl a b => [a, b]
  | .shr a b => [a, b]
  | .mod a b => [a, b]

/-- Encoding under an opcode map: the opcode byte, then the operand bytes at ascending addresses (R50). -/
def encodeWith (m : OpMap) (i : Instr) : List Byte := m i.opcode :: i.operands

/-- Encoding with the map of R56. -/
def encode (i : Instr) : List Byte := encodeWith opMap i

/-- The length in bytes: one opcode byte and the operand bytes (R51). -/
def Instr.length (i : Instr) : Nat := 1 + i.opcode.format.nops

/-- The longest instruction's three bytes, laid out from a number whose bits are counted from the first byte's least
significant bit; the bits at and above `nbits` are 0. -/
def tableBytes (nbits w : Nat) : List Byte :=
  let v := w % 2 ^ nbits
  [BitVec.ofNat 8 v, BitVec.ofNat 8 (v / 2 ^ 8), BitVec.ofNat 8 (v / 2 ^ 16)]

/-- The instruction the decoder reads from a table word (the first byte is the opcode, operand bytes the table gives no bits
are zero); none where it refuses. -/
def decodeTableWord (nbits w : Nat) : Option Instr :=
  match decode (tableBytes nbits w) with
  | .ok (i, _) => some i
  | .error _ => none

end Sys2Proof
end

