-- ==== Sys2Proof/Config.lean ====
section
/-! DEFINITION. The implementation parameters of spec/00_scope.md R4 that name a value. The sizes of R4 are written where they
are used: 256 cells of 8 bits (`Memory`, addresses below 256), 8 registers of 8 bits (`State.regs`, indices `Fin 8`), a 9-bit
pc (`PcWord`), 3 flags (`Flags`), instructions of at most 3 bytes. The opcode map OPMAP is in Sys2Proof/Decode.lean, where
decoding takes it as an argument. There is no free value: the spec says that nothing in the engine is `any value`
(spec/93_implementation_defined.md section 1). -/

namespace Sys2Proof

/-- SP: the index of the stack-pointer register (R4, spec/10_state.md R12). -/
def Config.spIndex : Fin 8 := 7

/-- SP_RESET: the reset value of register 7 (R4, spec/10_state.md R12). -/
def Config.spReset : Byte := 0xF4

/-- PC_RESET: the entry point, fixed (R4, spec/70_reset_and_hazards.md R161). -/
def Config.pcReset : PcWord := 0

end Sys2Proof
end

