-- ==== Sys2Proof/Machine/State.lean ====
section
/-! DEFINITION. The state tuple of spec/10_state.md section 1, as plain data, and its reset value (R27); the reasons of the
host's outcomes. -/

namespace Sys2Proof.Machine

/-- Why the engine halted (spec/10_state.md R21). -/
inductive HaltCause where
  /-- stopped by HLT (spec/40_cycle_and_halt.md R76) -/
  | hlt
  /-- stopped by the unrecognised opcode byte `b`, the diagnostic (spec/60_exceptions.md R140) -/
  | unknownOpcode (b : Byte)
deriving DecidableEq, Repr

/-- The three runtime faults of spec/60_exceptions.md R130 to R133, with the info each records. They are the hardware's own
faults and end in the run state `faulted`; they are not the host interface's `Fault`. -/
inductive EngineFault where
  /-- a memory access named address `addr` > 255 (R131) -/
  | addressOutOfRange (addr : Nat)
  /-- a register access named index `idx` > 7 (R132) -/
  | invalidRegister (idx : Byte)
  /-- MOD's divisor register, whose index is `opb`, holds 0 (R133) -/
  | divisionByZero (opb : Byte)
deriving DecidableEq, Repr

/-- The run state `rs` (spec/10_state.md R21); `halted` and `faulted` are terminal (spec/40_cycle_and_halt.md R71). -/
inductive RunState where
  | running
  | halted (cause : HaltCause)
  | faulted (f : EngineFault)
deriving DecidableEq, Repr

/-- The three condition flags (spec/10_state.md R17). -/
structure Flags where
  less : Bool
  greater : Bool
  equal : Bool
deriving DecidableEq, Repr

/-- The 256 cells (spec/10_state.md R22) as the list of those that do not hold 0, addresses strictly rising. -/
abbrev Memory := List Host.Cell

/-- A general register's index (spec/10_state.md R10). -/
abbrev RegIdx := Fin 8

/-- The complete state of the engine (spec/10_state.md section 1: "Nothing else is state"). -/
structure State where
  /-- x[0..7]; register 7 is the stack pointer (R10, R12) -/
  regs : Vector Byte 8
  /-- the program counter (R14, R15) -/
  pc : PcWord
  /-- the condition flags (R17) -/
  fl : Flags
  /-- the memory (R22) -/
  mem : Memory
  /-- the run state (R21) -/
  rs : RunState
  /-- the output trace, oldest first (R24) -/
  out : List Byte
deriving DecidableEq, Repr

/-- The host interface's faults: THERE ARE NONE. The spec describes what each fault of the engine does (the run state becomes
Faulted and nothing else changes, spec/60_exceptions.md R137), so raising one is a next state, and no step stops outside the
spec's description. Being empty it is safe: nothing is left out by it. -/
inductive Fault where
deriving DecidableEq, Repr

/-- The reasons a step has no meaning. -/
inductive Refusal where
  /-- raised only by an arm of `exec` for an instruction that has no meaning in this model (safe); no arm raises it now -/
  | notModelled (mnemonic : String)
deriving DecidableEq, Repr

/-- The outcome of one step of this machine. -/
abbrev Result := Host.Outcome State Fault Refusal

/-- The state after reset (spec/10_state.md R27, spec/70_reset_and_hazards.md R160). R0 to R6 and the flags are 0 by the
spec's decisions D3 and D4 (log entries 2 and 3). -/
def State.reset : State where
  regs := (Vector.replicate 8 0).set Config.spIndex.val Config.spReset Config.spIndex.isLt
  pc := Config.pcReset
  fl := ⟨false, false, false⟩
  mem := []
  rs := .running
  out := []

end Sys2Proof.Machine
end

