-- ==== Sys2Proof/Machine/Flags.lean ====
section
/-! DEFINITION. The flags: what CMP computes (the only writer) and what the conditional jumps read (spec/10_state.md R17,
R18). -/

namespace Sys2Proof.Machine

/-- CMP's flags for the unsigned values `x` (first operand) and `y` (second): exactly one is set (spec/42_alu.md R93,
spec/10_state.md R18). `less` means x < y, which the spec derives from the operand order (log entry 16). -/
def compareFlags (x y : Byte) : Flags :=
  if x.toNat < y.toNat then ⟨true, false, false⟩
  else if y.toNat < x.toNat then ⟨false, true, false⟩
  else ⟨false, false, true⟩

/-- The four values the flags can have: none set, before the first CMP, or exactly one (spec/10_state.md R18). -/
def Flags.reachable : List Flags :=
  [⟨false, false, false⟩, ⟨true, false, false⟩, ⟨false, true, false⟩, ⟨false, false, true⟩]

/-- The condition JEQ tests; JNE tests its complement (spec/44_control_transfer.md R119, R120). -/
def Flags.isEqual (f : Flags) : Bool := f.equal

end Sys2Proof.Machine
end

