-- ==== Sys2Proof/Machine/Ops.lean ====
section
/-! DEFINITION. The named operations over memory, registers, pc, output and run state that the meanings are built from, and
taking a fault (spec/00_scope.md R6, spec/20_memory.md R31, spec/60_exceptions.md R137). -/

namespace Sys2Proof.Machine

/-! ## Memory -/

/-- What a cell nothing has written holds: memory is zero-initialized (spec/10_state.md R22, R27). -/
def Memory.unlisted : Byte := 0

/-- The byte in cell `a`. -/
def Memory.read (m : Memory) (a : Nat) : Byte :=
  match m with
  | [] => Memory.unlisted
  | (b, v) :: rest => if a = b then v else Memory.read rest a

/-- A cell in front of a list, left out when it holds what an unlisted cell holds. -/
def Memory.put (a : Nat) (v : Byte) (m : Memory) : Memory :=
  if v = Memory.unlisted then m else (a, v) :: m

/-- Store `v` in cell `a`, keeping the canonical form. -/
def Memory.write (m : Memory) (a : Nat) (v : Byte) : Memory :=
  match m with
  | [] => Memory.put a v []
  | (b, w) :: rest =>
    if a < b then Memory.put a v ((b, w) :: rest)
    else if a = b then Memory.put a v rest
    else (b, w) :: Memory.write rest a v

/-- The canonical form: addresses of cells that exist, strictly rising, and no listed cell holding the unlisted value. -/
def Memory.wf (m : Memory) : Bool :=
  match m with
  | [] => true
  | (a, v) :: rest =>
    decide (a < 256) && decide (v ≠ Memory.unlisted) && rest.all (fun c => decide (a < c.1)) && Memory.wf rest

/-- `read(address) -> byte`, failing outside [0, size) (spec/20_memory.md R31). -/
def Memory.read? (m : Memory) (a : Nat) : Option Byte :=
  if a < 256 then some (m.read a) else none

/-- `write(address, byte)`, failing outside [0, size) (spec/20_memory.md R31). -/
def Memory.write? (m : Memory) (a : Nat) (v : Byte) : Option Memory :=
  if a < 256 then some (m.write a v) else none

/-! ## Registers -/

/-- `x[r]` (spec/00_scope.md R6). No register is hard-wired (spec/10_state.md R10). -/
def State.reg (s : State) (r : RegIdx) : Byte := s.regs[r]

/-- `x[r] <- v` (spec/00_scope.md R6). -/
def State.setReg (s : State) (r : RegIdx) (v : Byte) : State :=
  { s with regs := s.regs.set r.val v r.isLt }

/-- `sp` abbreviates `x[7]` (spec/10_state.md R12). -/
def State.sp (s : State) : Byte := s.reg Config.spIndex

/-- `x[7] <- (x[7] - 1) mod 256` (spec/43_stack.md R110; the wrap is decision D9, log entry 8). -/
def State.decSp (s : State) : State := s.setReg Config.spIndex (s.sp - 1)

/-- `x[7] <- (x[7] + 1) mod 256` (spec/43_stack.md R110; the wrap is decision D9, log entry 8). -/
def State.incSp (s : State) : State := s.setReg Config.spIndex (s.sp + 1)

/-! ## Program counter, flags, output -/

/-- `pc <- pc + n`, the advance rule (spec/40_cycle_and_halt.md R73), within the pc's 9 bits (log entry 17). -/
def State.advance (s : State) (n : Nat) : State := { s with pc := s.pc + BitVec.ofNat 9 n }

/-- `pc <- zext_9(target)`: a control transfer (spec/44_control_transfer.md R115). -/
def State.jump (s : State) (target : Byte) : State := { s with pc := target.setWidth 9 }

/-- `fl <- f` (spec/00_scope.md R6). -/
def State.setFlags (s : State) (f : Flags) : State := { s with fl := f }

/-- `out(v)`: append to the output trace (spec/00_scope.md R6, spec/10_state.md R24; log entry 12). -/
def State.emit (s : State) (v : Byte) : State := { s with out := s.out ++ [v] }

/-- `mem <- m` -/
def State.setMem (s : State) (m : Memory) : State := { s with mem := m }

/-! ## Stopping -/

/-- `halt(cause)` (spec/00_scope.md R6). -/
def State.halt (s : State) (c : HaltCause) : State := { s with rs := .halted c }

/-- `raise f`: TAKING A FAULT. Applied to the state at the start of the instruction, it changes the run state and nothing
else; `pc` stays at the instruction (spec/60_exceptions.md R137, R139, decision D7, log entry 6). There is no return from a
fault (R142): only reset leaves the state it makes. -/
def State.raise (s : State) (f : EngineFault) : State := { s with rs := .faulted f }

/-- `MemRead(addr, 1)` in an instruction that began in `s` (spec/00_scope.md R6, spec/60_exceptions.md R131). -/
def withRead (addr : Nat) (s : State) (k : Byte → Result) : Result :=
  match s.mem.read? addr with
  | some v => k v
  | none => .next (s.raise (.addressOutOfRange addr))

/-- `MemWrite(addr, 1, v)` in the state `t` of an instruction that began in `start`; a fault abandons the instruction with the
state it began in (spec/00_scope.md R6, spec/60_exceptions.md R131, R137). -/
def withWrite (addr : Nat) (v : Byte) (start t : State) (k : State → Result) : Result :=
  match t.mem.write? addr v with
  | some m => k (t.setMem m)
  | none => .next (start.raise (.addressOutOfRange addr))

end Sys2Proof.Machine
end

