-- ==== Sys2Proof/Machine/Operands.lean ====
section
/-! DEFINITION. The operand forms: a register operand is a whole byte checked when it is used; an immediate is the byte
itself (spec/30_encoding.md R52 to R54). -/

namespace Sys2Proof.Machine

/-- The register an operand byte names; none above 7, with no reduction modulo 8 (spec/30_encoding.md R53). -/
def regIdx? (b : Byte) : Option RegIdx :=
  if h : b.toNat < 8 then some ⟨b.toNat, h⟩ else none

/-- The register check an instruction makes before its first state change: `if op > 7: raise InvalidRegister(op)`
(spec/60_exceptions.md R132, spec/40_cycle_and_halt.md R74). -/
def withReg (b : Byte) (s : State) (k : RegIdx → Result) : Result :=
  match regIdx? b with
  | some r => k r
  | none => .next (s.raise (.invalidRegister b))

/-- Both register checks of an OP2RR instruction, `opa` first (spec/42_alu.md R102, spec/60_exceptions.md R138). -/
def withRegs (a b : Byte) (s : State) (k : RegIdx → RegIdx → Result) : Result :=
  withReg a s fun ra => withReg b s fun rb => k ra rb

end Sys2Proof.Machine
end

