-- ==== Sys2Proof/Machine/Alu.lean ====
section
/-! DEFINITION. The ALU and its ten instructions (spec/42_alu.md). Results are computed on unbounded non-negative integers
and reduced modulo 256 (R90, R101). -/

namespace Sys2Proof.Machine

/-- The ten operations of the ALU contract (R90). A total function on them has no UnsupportedOperation case (R103,
spec/60_exceptions.md R134). -/
inductive AluOp where
  | add | mul | and | or | xor | not | shl | shr | mod | cmp
deriving DecidableEq, Repr

/-- What an ALU operation does with its two source values. -/
inductive AluEffect where
  /-- write the value to register A -/
  | write (v : Byte)
  /-- write the three flags -/
  | flags (f : Flags)
  /-- fail with DivisionByZero -/
  | divisionByZero
deriving DecidableEq, Repr

/-- `(a + b) mod 256` (R91). -/
def aluAdd (x y : Byte) : Byte := BitVec.ofNat 8 (x.toNat + y.toNat)

/-- `(a * b) mod 256` (R92). -/
def aluMul (x y : Byte) : Byte := BitVec.ofNat 8 (x.toNat * y.toNat)

/-- `a & b` (R94). -/
def aluAnd (x y : Byte) : Byte := x &&& y

/-- `a | b` (R95). -/
def aluOr (x y : Byte) : Byte := x ||| y

/-- `a ^ b` (R96). -/
def aluXor (x y : Byte) : Byte := x ^^^ y

/-- `255 - a` (R97). -/
def aluNot (x : Byte) : Byte := BitVec.ofNat 8 (255 - x.toNat)

/-- `(a * 2^n) mod 256`, the count not masked (R98, decision D20, log entry 13). -/
def aluShl (x n : Byte) : Byte := BitVec.ofNat 8 (x.toNat * 2 ^ n.toNat)

/-- `a div 2^n`, the count not masked (R99, decision D20, log entry 13). -/
def aluShr (x n : Byte) : Byte := BitVec.ofNat 8 (x.toNat / 2 ^ n.toNat)

/-- `a mod b`, for b > 0 (R100). -/
def aluMod (x y : Byte) : Byte := BitVec.ofNat 8 (x.toNat % y.toNat)

/-- The ALU: every operation by this one path (R90, C4). NOT ignores the second value (R97). -/
def alu (op : AluOp) (x y : Byte) : AluEffect :=
  match op with
  | .add => .write (aluAdd x y)
  | .mul => .write (aluMul x y)
  | .and => .write (aluAnd x y)
  | .or => .write (aluOr x y)
  | .xor => .write (aluXor x y)
  | .not => .write (aluNot x)
  | .shl => .write (aluShl x y)
  | .shr => .write (aluShr x y)
  | .mod => if y = 0 then .divisionByZero else .write (aluMod x y)
  | .cmp => .flags (compareFlags x y)

/-- `apply(op, regA, regB)` and the pc advance after it (R90, R102). Both sources are read before the write, so a register may
be both. DivisionByZero records `opb`, the divisor's register index (spec/60_exceptions.md R133). -/
def applyAlu (op : AluOp) (ra rb : RegIdx) (opb : Byte) (len : Nat) (s : State) : Result :=
  match alu op (s.reg ra) (s.reg rb) with
  | .write v => .next ((s.setReg ra v).advance len)
  | .flags f => .next ((s.setFlags f).advance len)
  | .divisionByZero => .next (s.raise (.divisionByZero opb))

/-- The common behaviour of the OP2RR ALU instructions (R102). -/
def aluBinary (op : AluOp) (a b : Byte) (s : State) : Result :=
  withRegs a b s fun ra rb => applyAlu op ra rb b 3 s

/-- ADD Ra, Rb (R91). -/
def execAdd (a b : Byte) (s : State) : Result := aluBinary .add a b s

/-- MUL Ra, Rb (R92). -/
def execMul (a b : Byte) (s : State) : Result := aluBinary .mul a b s

/-- CMP Ra, Rb (R93). -/
def execCmp (a b : Byte) (s : State) : Result := aluBinary .cmp a b s

/-- AND Ra, Rb (R94). -/
def execAnd (a b : Byte) (s : State) : Result := aluBinary .and a b s

/-- OR Ra, Rb (R95). -/
def execOr (a b : Byte) (s : State) : Result := aluBinary .or a b s

/-- XOR Ra, Rb (R96). -/
def execXor (a b : Byte) (s : State) : Result := aluBinary .xor a b s

/-- NOT Ra: one operand, two bytes (R97, C6). -/
def execNot (a : Byte) (s : State) : Result :=
  withReg a s fun ra => applyAlu .not ra ra a 2 s

/-- SHL Ra, Rb (R98). -/
def execShl (a b : Byte) (s : State) : Result := aluBinary .shl a b s

/-- SHR Ra, Rb (R99). -/
def execShr (a b : Byte) (s : State) : Result := aluBinary .shr a b s

/-- MOD Ra, Rb (R100). -/
def execMod (a b : Byte) (s : State) : Result := aluBinary .mod a b s

end Sys2Proof.Machine
end

