-- ==== Sys2Proof/Machine/Control.lean ====
section
/-! DEFINITION. CALL, RET, JMP, JEQ, JNE (spec/44_control_transfer.md). -/

namespace Sys2Proof.Machine

/-- CALL Ra: the return address pc + 2 must be an address (decision D10, log entry 9); decrement register 7, store it, jump to
`x[a]`, read after the decrement (R116). -/
def execCall (a : Byte) (s : State) : Result :=
  withReg a s fun ra =>
    if 255 < s.pc.toNat + 2 then .next (s.raise (.addressOutOfRange (s.pc.toNat + 2)))
    else
      withWrite s.decSp.sp.toNat (BitVec.ofNat 8 (s.pc.toNat + 2)) s s.decSp fun t =>
        .next (t.jump (t.reg ra))

/-- RET: jump to the byte at the stack pointer and increment register 7 (R117). -/
def execRet (s : State) : Result :=
  withRead s.sp.toNat s fun v => .next (s.incSp.jump v)

/-- A jump to the address in a register (R115). -/
def jumpTo (a : Byte) (s : State) : Result :=
  withReg a s fun ra => .next (s.jump (s.reg ra))

/-- JMP Ra (R118). -/
def execJmp (a : Byte) (s : State) : Result := jumpTo a s

/-- JEQ Ra: the register is checked and read only when the branch is taken (R119, decision D18, log entry 14). -/
def execJeq (a : Byte) (s : State) : Result :=
  if s.fl.isEqual then jumpTo a s else .next (s.advance 2)

/-- JNE Ra: the complement of JEQ (R120, decision D18, log entry 14). -/
def execJne (a : Byte) (s : State) : Result :=
  if s.fl.isEqual then .next (s.advance 2) else jumpTo a s

end Sys2Proof.Machine
end

