-- ==== Sys2Proof/Machine/Halt.lean ====
section
/-! DEFINITION. HLT (spec/40_cycle_and_halt.md). -/

namespace Sys2Proof.Machine

/-- HLT: the run state becomes Halted(Hlt) and the pc advances by 1 (R76). -/
def execHlt (s : State) : Result := .next ((s.halt .hlt).advance 1)

end Sys2Proof.Machine
end

