-- ==== Sys2Proof/Machine/LoadPrint.lean ====
section
/-! DEFINITION. LDI and PRN (spec/41_load_and_print.md). -/

namespace Sys2Proof.Machine

/-- LDI Ra, imm: `x[a] <- imm` (R85). -/
def execLdi (a imm : Byte) (s : State) : Result :=
  withReg a s fun ra => .next ((s.setReg ra imm).advance 3)

/-- PRN Ra: `out(x[a])` (R86). -/
def execPrn (a : Byte) (s : State) : Result :=
  withReg a s fun ra => .next ((s.emit (s.reg ra)).advance 2)

end Sys2Proof.Machine
end

