-- ==== Sys2Proof/Machine/Stack.lean ====
section
/-! DEFINITION. PUSH and POP (spec/43_stack.md). -/

namespace Sys2Proof.Machine

/-- PUSH Ra: decrement register 7, then store `x[a]`, read after the decrement, at the new stack pointer (R111). -/
def execPush (a : Byte) (s : State) : Result :=
  withReg a s fun ra =>
    withWrite s.decSp.sp.toNat (s.decSp.reg ra) s s.decSp fun t => .next (t.advance 2)

/-- POP Ra: load `x[a]` from the stack pointer, then increment register 7 (R112). -/
def execPop (a : Byte) (s : State) : Result :=
  withReg a s fun ra =>
    withRead s.sp.toNat s fun v => .next ((s.setReg ra v).incSp.advance 2)

end Sys2Proof.Machine
end

