-- ==== Sys2Proof/Machine/Fetch.lean ====
section
/-! DEFINITION. The fetch, decode and operand-fetch phases of a cycle (spec/40_cycle_and_halt.md R70), and placing bytes where
the next cycle fetches. -/

namespace Sys2Proof.Machine

/-- What the first three phases of a cycle come to. -/
inductive Fetched where
  /-- an instruction to execute -/
  | instr (i : Instr)
  /-- an unrecognised opcode byte -/
  | unknown (b : Byte)
  /-- a fetch fault -/
  | fault (f : EngineFault)
deriving DecidableEq, Repr

/-- Operand fetch: only the bytes the opcode has are read, first operand first, and one above 255 raises AddressOutOfRange at
its own address (spec/20_memory.md R36, decision D6, log entry 5). -/
def fetchOperands (s : State) (f : Format) : Fetched :=
  match f with
  | .op0 i => .instr i
  | .op1r mk =>
    match s.mem.read? (s.pc.toNat + 1) with
    | none => .fault (.addressOutOfRange (s.pc.toNat + 1))
    | some a => .instr (mk a)
  | .op2rr mk => fetchTwo mk
  | .op2ri mk => fetchTwo mk
where
  /-- the two operand bytes of a 3-byte instruction, in ascending order -/
  fetchTwo (mk : Byte → Byte → Instr) : Fetched :=
    match s.mem.read? (s.pc.toNat + 1) with
    | none => .fault (.addressOutOfRange (s.pc.toNat + 1))
    | some a =>
      match s.mem.read? (s.pc.toNat + 2) with
      | none => .fault (.addressOutOfRange (s.pc.toNat + 2))
      | some b => .instr (mk a b)

/-- Opcode fetch (R72), decode, operand fetch (R70), in the priority order of spec/60_exceptions.md R138. Fetch reads the memory
as it is now, so a store by PUSH or CALL is seen by the next fetch (spec/20_memory.md R40). -/
def fetch (s : State) : Fetched :=
  match s.mem.read? s.pc.toNat with
  | none => .fault (.addressOutOfRange s.pc.toNat)
  | some op =>
    match lookup op with
    | none => .unknown op
    | some o => fetchOperands s o.format

/-- The bytes of memory from the pc, as many as the longest instruction has and as there are: the source's fetch of an opcode
byte and the two bytes after it (R70, spec/20_memory.md R35). -/
def State.codeBytes (s : State) : List Byte :=
  (List.range 3).filterMap fun k => s.mem.read? (s.pc.toNat + k)

/-- Store bytes at consecutive addresses from `a`. -/
def Memory.writeBytes (m : Memory) (a : Nat) (bs : List Byte) : Memory :=
  match bs with
  | [] => m
  | b :: rest => Memory.writeBytes (m.write a b) (a + 1) rest

/-- Place an instruction's bytes where the next step fetches: at the pc, or at address 0 where the longest instruction would
not fit before the end of memory; a stopped engine is set running, since it fetches nothing (log entry 18). -/
def State.placeCode (s : State) (bs : List Byte) : State :=
  let pc : PcWord := if s.pc.toNat + 3 ≤ 256 then s.pc else 0
  { s with pc := pc, rs := .running, mem := s.mem.writeBytes pc.toNat bs }

end Sys2Proof.Machine
end

