-- ==== Sys2Proof/Machine/Step.lean ====
section
/-! DEFINITION. One cycle (spec/40_cycle_and_halt.md R70), and the host's way to place an instruction for the next one. -/

namespace Sys2Proof.Machine

/-- One cycle: in a terminal run state nothing changes (R71, log entry 11); an unknown opcode halts with the byte as diagnostic
and changes nothing else (spec/60_exceptions.md R140, decision D8, log entry 7); a fetch fault is raised; an instruction is
executed. -/
def step (s : State) : Host.Outcome State Fault Refusal :=
  match s.rs with
  | .running =>
    match fetch s with
    | .instr i => exec i s
    | .unknown b => .next (s.halt (.unknownOpcode b))
    | .fault f => .next (s.raise f)
  | .halted _ => .next s
  | .faulted _ => .next s

/-- `s` with a table word's instruction stored where `step` fetches next (log entry 18). -/
def State.withFetchWord (s : State) (nbits w : Nat) : State :=
  s.placeCode (tableBytes nbits w)

end Sys2Proof.Machine
end

