-- ==== Sys2Proof/Machine/Interface.lean ====
section
/-! DEFINITION. The host's side of the engine, as transactions (spec/10_state.md R23 to R26): reset, load, step, run, and what the
status interface shows. -/

namespace Sys2Proof.Machine

/-- The control transactions (spec/10_state.md R23). `run` repeats `step` and may never return, so it is given here as a number
of steps. -/
inductive Transaction where
  | reset
  | load (image : List Byte)
  | step
  | runFor (n : Nat)
deriving DecidableEq, Repr

/-- The part of the boot sequence the host is in (spec/10_state.md R23, spec/70_reset_and_hazards.md R162). No instruction reads or
writes it: it belongs to the interface, not to the engine's state tuple. -/
inductive Phase where
  /-- after reset, before the first step: the only time a load may come (R23, spec/20_memory.md R41) -/
  | beforeFirstStep
  /-- a step has been made since reset -/
  | stepped
deriving DecidableEq, Repr

/-- The engine as the host drives it. -/
structure Session where
  engine : State
  phase : Phase
deriving DecidableEq, Repr

/-- What a transaction that is performed gives. -/
abbrev SessionResult := Host.Outcome Session Fault Refusal

/-- After the reset transaction, which is also the machine's construction (spec/70_reset_and_hazards.md R160). -/
def Session.reset : Session := { engine := State.reset, phase := .beforeFirstStep }

/-- `mem[i] <- image[i]` for every i below the image's length, 0 in every cell beyond it, and nothing but memory changes
(spec/10_state.md R23, spec/70_reset_and_hazards.md R163). So a second load before the first step leaves nothing of the first
(log entry 19). -/
def State.load (s : State) (image : List Byte) : State :=
  s.setMem (State.reset.mem.writeBytes 0 image)

/-- At most `n` cycles: `run`'s repetition of `step` while the run state is Running (spec/40_cycle_and_halt.md R75). A step of a
stopped engine changes nothing, so no test of the run state is needed (R71). -/
def runFor (n : Nat) (s : State) : Result :=
  match n with
  | 0 => .next s
  | n + 1 =>
    match step s with
    | .next t => runFor n t
    | .fault f => .fault f
    | .refused r => .refused r

/-- `n` cycles of the session: from the first cycle on, no load may come until the next reset (spec/10_state.md R23). -/
def Session.runFor (n : Nat) (c : Session) : SessionResult :=
  match Machine.runFor n c.engine with
  | .next t => .next { engine := t, phase := if n = 0 then c.phase else .stepped }
  | .fault f => .fault f
  | .refused r => .refused r

/-- A transaction's result; none where its precondition fails, so that the interface has no such move: a load once a step has
been made (spec/10_state.md R23, spec/20_memory.md R41, spec/60_exceptions.md R141), or of an image longer than memory, which is
the host's load-time error (spec/70_reset_and_hazards.md R163, decision D16). -/
def perform (t : Transaction) (c : Session) : Option SessionResult :=
  match t with
  | .reset => some (.next Session.reset)
  | .load image =>
    if image.length ≤ 256 ∧ c.phase = .beforeFirstStep then some (.next { c with engine := c.engine.load image }) else none
  | .step => some (c.runFor 1)
  | .runFor n => some (c.runFor n)

/-- Reset and load: the state the first step of a run starts from (spec/70_reset_and_hazards.md R162); none for an image that is
too long. -/
def boot (image : List Byte) : Option State :=
  if image.length ≤ 256 then some (State.reset.load image) else none

/-- The run state is terminal (spec/10_state.md R21). -/
def State.stopped (s : State) : Bool := decide (s.rs ≠ .running)

/-- The unknown-opcode diagnostic the status interface shows; it is no part of the output trace (spec/10_state.md R25). -/
def State.diagnostic (s : State) : Option Byte :=
  match s.rs with
  | .halted (.unknownOpcode b) => some b
  | .halted .hlt => none
  | .running => none
  | .faulted _ => none

/-- The host's read of memory, which it may make once the engine has stopped (spec/20_memory.md R41, spec/10_state.md R25). -/
def State.hostRead? (s : State) (a : Nat) : Option Byte :=
  if s.stopped then s.mem.read? a else none

/-- The optional fault numbers of spec/60_exceptions.md R130 (decision D7); no instruction reads them. -/
def EngineFault.code : EngineFault → Nat
  | .addressOutOfRange _ => 1
  | .invalidRegister _ => 2
  | .divisionByZero _ => 3

end Sys2Proof.Machine
end

