-- ==== Sys2Proof/Safety.lean ====
section
/-! DEFINITION. What a run may end in, and the invariants claims are stated with. -/

namespace Sys2Proof.Machine

/-- A successful end: Halted(Hlt) (spec/40_cycle_and_halt.md R77). -/
abbrev State.Successful (s : State) : Prop := s.rs = .halted .hlt

/-- A clean stop with a diagnostic: an unknown opcode (R77). -/
abbrev State.CleanStop (s : State) (b : Byte) : Prop := s.rs = .halted (.unknownOpcode b)

/-- An error stop (R77). -/
abbrev State.ErrorStop (s : State) (f : EngineFault) : Prop := s.rs = .faulted f

/-- The state invariants of spec/10_state.md R28 that the types do not already give: the pc is at most 256, the flags have one
of the four values of R18; and the model's memory is in its canonical form. -/
abbrev State.Inv (s : State) : Prop :=
  s.mem.wf = true ∧ s.pc.toNat ≤ 256 ∧ s.fl ∈ Flags.reachable

/-- A terminal run state tells the truth about the machine it stopped: HLT's byte lies just before the pc; the unknown opcode's
byte lies at the pc and is no opcode; an out-of-range address is 256; an invalid register is above 7; the divisor register
exists and holds 0 (spec/10_state.md R21, spec/60_exceptions.md R131 to R133, R140). -/
def State.StopReason (s : State) : Prop :=
  match s.rs with
  | .running => True
  | .halted .hlt => ∃ a, s.pc.toNat = a + 1 ∧ a < 256 ∧ s.mem.read a = opMap .hlt
  | .halted (.unknownOpcode b) => s.pc.toNat < 256 ∧ s.mem.read s.pc.toNat = b ∧ lookup b = none
  | .faulted (.addressOutOfRange addr) => addr = 256 ∧ 254 ≤ s.pc.toNat
  | .faulted (.invalidRegister idx) => 7 < idx.toNat
  | .faulted (.divisionByZero b) => ∃ h : b.toNat < 8, s.reg ⟨b.toNat, h⟩ = 0

/-- The register operands an instruction reads or writes in this state, in the order they are checked: JEQ and JNE use theirs
only when the branch is taken (spec/60_exceptions.md R132, spec/10_state.md R13). -/
def State.registersUsed (s : State) : Instr → List Byte
  | .hlt => []
  | .ldi a _ => [a]
  | .prn a => [a]
  | .add a b => [a, b]
  | .mul a b => [a, b]
  | .cmp a b => [a, b]
  | .push a => [a]
  | .pop a => [a]
  | .call a => [a]
  | .ret => []
  | .jmp a => [a]
  | .jeq a => if s.fl.equal then [a] else []
  | .jne a => if s.fl.equal then [] else [a]
  | .and a b => [a, b]
  | .or a b => [a, b]
  | .xor a b => [a, b]
  | .not a => [a]
  | .shl a b => [a, b]
  | .shr a b => [a, b]
  | .mod a b => [a, b]

/-- The first register operand used that names no register (spec/60_exceptions.md R132: `opa` before `opb`). -/
def State.firstBadRegister (s : State) (i : Instr) : Option Byte :=
  (s.registersUsed i).find? fun b => decide (7 < b.toNat)

end Sys2Proof.Machine
end

