-- ==== Sys2Proof/WellFormed.lean ====
section
/-! DEFINITION. Well-formed instructions: those whose every register operand names a register. -/

namespace Sys2Proof

/-- An operand byte names a register when it is at most 7: `0b00000rrr` is "the only valid encoding of register r"
(spec/30_encoding.md R53). -/
def isRegister (b : Byte) : Bool := decide (b.toNat < 8)

/-- Every register operand of the instruction names a register. LDI's second operand is an immediate and is never checked
(spec/60_exceptions.md R132). An ill-formed instruction is still decoded and run: it raises InvalidRegister. -/
def Instr.wellFormed : Instr → Bool
  | .hlt => true
  | .ldi a _ => isRegister a
  | .prn a => isRegister a
  | .add a b => isRegister a && isRegister b
  | .mul a b => isRegister a && isRegister b
  | .cmp a b => isRegister a && isRegister b
  | .push a => isRegister a
  | .pop a => isRegister a
  | .call a => isRegister a
  | .ret => true
  | .jmp a => isRegister a
  | .jeq a => isRegister a
  | .jne a => isRegister a
  | .and a b => isRegister a && isRegister b
  | .or a b => isRegister a && isRegister b
  | .xor a b => isRegister a && isRegister b
  | .not a => isRegister a
  | .shl a b => isRegister a && isRegister b
  | .shr a b => isRegister a && isRegister b
  | .mod a b => isRegister a && isRegister b

end Sys2Proof
end

