-- ==== Sys2Proof/Certificates/Slice0/Obligations.lean ====
section
/-! DEFINITION. The statements for the provers, each formalising rules of spec/. `D<n>` is a decision of
spec/92_eei_decisions.md; where a clause rests on one, or on an inference the spec marks as its own, the docstring names it and
the log entry under notes/assumptions/. -/

open Sys2Proof Sys2Proof.Machine

/-! ## Encoding and decoding -/

/-- The words of the 20 instructions, written out bit by bit from spec/30_encoding.md R50 and R56 (the opcode values are D1, log
entry 1), decode to the instructions they stand for, whatever the operand bytes and whatever follows. -/
def Obligations.WrittenOutWordsDecode : Prop :=
  ∀ (a b : Byte) (rest : List Byte),
    decode (0b00000001 :: rest) = .ok (.hlt, rest) ∧
    decode (0b10000010 :: a :: b :: rest) = .ok (.ldi a b, rest) ∧
    decode (0b01000111 :: a :: rest) = .ok (.prn a, rest) ∧
    decode (0b10100000 :: a :: b :: rest) = .ok (.add a b, rest) ∧
    decode (0b10100010 :: a :: b :: rest) = .ok (.mul a b, rest) ∧
    decode (0b10100111 :: a :: b :: rest) = .ok (.cmp a b, rest) ∧
    decode (0b01000101 :: a :: rest) = .ok (.push a, rest) ∧
    decode (0b01000110 :: a :: rest) = .ok (.pop a, rest) ∧
    decode (0b01010000 :: a :: rest) = .ok (.call a, rest) ∧
    decode (0b00010001 :: rest) = .ok (.ret, rest) ∧
    decode (0b01010100 :: a :: rest) = .ok (.jmp a, rest) ∧
    decode (0b01010101 :: a :: rest) = .ok (.jeq a, rest) ∧
    decode (0b01010110 :: a :: rest) = .ok (.jne a, rest) ∧
    decode (0b10101000 :: a :: b :: rest) = .ok (.and a b, rest) ∧
    decode (0b10101010 :: a :: b :: rest) = .ok (.or a b, rest) ∧
    decode (0b10101011 :: a :: b :: rest) = .ok (.xor a b, rest) ∧
    decode (0b01101001 :: a :: rest) = .ok (.not a, rest) ∧
    decode (0b10101100 :: a :: b :: rest) = .ok (.shl a b, rest) ∧
    decode (0b10101101 :: a :: b :: rest) = .ok (.shr a b, rest) ∧
    decode (0b10100100 :: a :: b :: rest) = .ok (.mod a b, rest)

/-- spec/30_encoding.md R50: the four formats, for any opcode map: the opcode byte at the lowest address, then no operand byte
(HLT, RET), a register byte (PRN, PUSH, POP, CALL, JMP, JEQ, JNE, NOT), two register bytes (ADD, MUL, CMP, AND, OR, XOR, SHL, SHR,
MOD) or a register byte and an immediate (LDI), each in the order opa, opb. -/
def Obligations.FormatsLayOutOpcodeThenOperands : Prop :=
  ∀ (m : OpMap) (a b : Byte),
    (∀ i ∈ [Instr.hlt, .ret], encodeWith m i = [m i.opcode]) ∧
    (∀ i ∈ [Instr.prn a, .push a, .pop a, .call a, .jmp a, .jeq a, .jne a, .not a],
      encodeWith m i = [m i.opcode, a]) ∧
    (∀ i ∈ [Instr.add a b, .mul a b, .cmp a b, .and a b, .or a b, .xor a b, .shl a b, .shr a b, .mod a b],
      encodeWith m i = [m i.opcode, a, b]) ∧
    encodeWith m (.ldi a b) = [m .ldi, a, b]

/-- Decode and encode agree, for EVERY instruction with every operand at every value, whatever follows, and for every opcode map
whose 20 values are distinct (the parameter OPMAP of spec/00_scope.md R4): no bit of an encoding is dropped
(spec/30_encoding.md R50, R52, R57). -/
def Obligations.DecodeOfEncode : Prop :=
  ∀ m : OpMap, (∀ o p, m o = m p → o = p) →
    ∀ (i : Instr) (rest : List Byte), decodeWith m (encodeWith m i ++ rest) = .ok (i, rest)

/-- Each word has one meaning: what decodes to an instruction begins with that instruction's encoding, and what is answered as
left over is what follows it (spec/30_encoding.md R52, R57, R60). -/
def Obligations.EncodeOfDecode : Prop :=
  ∀ (m : OpMap) (bs rest : List Byte) (i : Instr),
    decodeWith m bs = .ok (i, rest) → bs = encodeWith m i ++ rest

/-- spec/30_encoding.md R57: the opcode byte is compared for equality, all 8 bits, against the 20 values; the 20 values are
pairwise distinct, so at most one row matches; every byte either matches one row, which selects the instruction, or is
unrecognised. -/
def Obligations.OpcodeByteMatchesAtMostOneRow : Prop :=
  (∀ o p : Opcode, opMap o = opMap p → o = p) ∧
  (∀ (b : Byte) (o : Opcode), lookup b = some o ↔ opMap o = b) ∧
  (∀ (b : Byte) (rest : List Byte), (∀ o : Opcode, opMap o ≠ b) → decode (b :: rest) = .error (.unknownOpcode b)) ∧
  (∀ (b : Byte) (o : Opcode) (rest : List Byte), opMap o = b → decode (b :: rest) = takeOperands o.format rest)

/-- spec/30_encoding.md R58: every byte but the 20 values of R56 (D1, log entry 1) is an unrecognised opcode, refused by name
whatever follows; there are 236 of them. -/
def Obligations.OtherOpcodeBytesAreUnrecognised : Prop :=
  (∀ (b : Byte) (rest : List Byte),
    b ∉ ([0x01, 0x82, 0x47, 0xA0, 0xA2, 0xA7, 0x45, 0x46, 0x50, 0x11, 0x54, 0x55, 0x56, 0xA8, 0xAA, 0xAB, 0x69, 0xAC, 0xAD,
      0xA4] : List Byte) →
    decode (b :: rest) = .error (.unknownOpcode b)) ∧
  ((List.range 256).filter fun n => (lookup (BitVec.ofNat 8 n)).isNone).length = 236

/-! ## The cycle -/

/-- spec/40_cycle_and_halt.md R70: when the engine is running and the bytes at the pc decode to an instruction, a step is the
execute phase of that instruction on that state; nothing is added around it. -/
def Obligations.StepRunsTheDecodedInstruction : Prop :=
  ∀ (s : State) (i : Instr) (rest : List Byte),
    s.rs = .running → decode s.codeBytes = .ok (i, rest) → step s = exec i s

/-- Reading only the operand bytes an opcode has (R70) comes to the same as reading the opcode and the next two bytes and
ignoring the ones not consumed (the source's speculative fetch): the instruction is the one the bytes at the pc decode to, an
unrecognised byte is reported, and a byte that is needed and lies above 255 faults at its own address
(spec/20_memory.md R35, R36, D6, log entry 5). -/
def Obligations.SpeculativeFetchIsUnobservable : Prop :=
  ∀ s : State, fetch s =
    match decode s.codeBytes with
    | .ok (i, _) => .instr i
    | .error .noOpcode => .fault (.addressOutOfRange s.pc.toNat)
    | .error (.unknownOpcode b) => .unknown b
    | .error (.missingOperand k) => .fault (.addressOutOfRange (s.pc.toNat + k))

/-- No step ends outside the spec's description: from every state, reachable or not, every instruction and every step answers a
next state (spec/10_state.md R26; the faults are next states, spec/60_exceptions.md R139, D7, log entry 6). -/
def Obligations.EveryStepAnswersANextState : Prop :=
  (∀ (i : Instr) (s : State), ∃ t, exec i s = .next t) ∧ (∀ s : State, ∃ t, step s = .next t)

/-- spec/40_cycle_and_halt.md R71, R75: in a terminal run state a step, and so any number of steps, changes nothing; of
the host's transactions reset leaves it and only reset does (D12, log entry 11). -/
def Obligations.TerminalStatesAbsorb : Prop :=
  ∀ s : State, s.rs ≠ .running →
    step s = .next s ∧ (∀ n, runFor n s = .next s) ∧
    ∀ p : Phase, perform .reset ⟨s, p⟩ = some (.next Session.reset) ∧
      ∀ tr d, perform tr ⟨s, p⟩ = some (.next d) → tr ≠ .reset → d.engine.rs = s.rs

/-- spec/40_cycle_and_halt.md R72: a cycle that starts with the pc above 255 raises AddressOutOfRange(pc), changing nothing but
the run state; nothing wraps (D5, log entry 4). -/
def Obligations.OpcodeFetchAbove255Faults : Prop :=
  ∀ s : State, s.rs = .running → 255 < s.pc.toNat →
    step s = .next { s with rs := .faulted (.addressOutOfRange s.pc.toNat) }

/-- spec/60_exceptions.md R140: a byte fetched as opcode that is none of the 20 halts the engine with the byte as diagnostic;
the pc and everything else are unchanged, and the diagnostic is not in the output trace (D8, log entry 7; the 20 values are D1,
log entry 1). -/
def Obligations.UnknownOpcodeHaltsWithDiagnostic : Prop :=
  ∀ s : State, s.rs = .running → s.pc.toNat ≤ 255 →
    s.mem.read s.pc.toNat ∉ ([0x01, 0x82, 0x47, 0xA0, 0xA2, 0xA7, 0x45, 0x46, 0x50, 0x11, 0x54, 0x55, 0x56, 0xA8, 0xAA, 0xAB,
      0x69, 0xAC, 0xAD, 0xA4] : List Byte) →
    ∃ t, step s = .next t ∧ t = { s with rs := .halted (.unknownOpcode (s.mem.read s.pc.toNat)) } ∧
      t.diagnostic = some (s.mem.read s.pc.toNat)

/-- spec/20_memory.md R36: an instruction whose bytes all lie at or below 255 is executed, with the operand bytes found after the
opcode in ascending order (so a 1-byte one executes at any address); one that needs a byte above 255 raises
AddressOutOfRange(256), changing nothing but the run state (D6, log entry 5). -/
def Obligations.OperandFetchNearTheTop : Prop :=
  ∀ (s : State) (o : Opcode), s.rs = .running → s.pc.toNat ≤ 255 → lookup (s.mem.read s.pc.toNat) = some o →
    (255 < s.pc.toNat + o.format.nops → step s = .next { s with rs := .faulted (.addressOutOfRange 256) }) ∧
    (s.pc.toNat + o.format.nops ≤ 255 → ∃ i : Instr, i.opcode = o ∧
      i.operands = (List.range o.format.nops).map (fun k => s.mem.read (s.pc.toNat + 1 + k)) ∧ step s = exec i s)

/-- spec/60_exceptions.md R137: when a step of a running engine ends in a fault, the registers, flags, memory, pc and output are
exactly as they were: only the run state changes (D7, log entry 6). -/
def Obligations.FaultsArePrecise : Prop :=
  ∀ (s t : State) (f : EngineFault), s.rs = .running → step s = .next t → t.rs = .faulted f →
    t = { s with rs := .faulted f }

/-- spec/60_exceptions.md R138: which condition is reported when several hold: opcode fetch, unknown opcode, first operand fetch,
second operand fetch, InvalidRegister(opa), InvalidRegister(opb), then DivisionByZero or CALL's return address. Each clause
leaves the later conditions open (D11, log entry 10). -/
def Obligations.FaultPriority : Prop :=
  ∀ s t : State, s.rs = .running → step s = .next t →
    (255 < s.pc.toNat → t.rs = .faulted (.addressOutOfRange s.pc.toNat)) ∧
    (s.pc.toNat ≤ 255 → lookup (s.mem.read s.pc.toNat) = none →
      t.rs = .halted (.unknownOpcode (s.mem.read s.pc.toNat))) ∧
    (∀ o, s.pc.toNat ≤ 255 → lookup (s.mem.read s.pc.toNat) = some o →
      (s.pc.toNat = 255 → 1 ≤ o.format.nops → t.rs = .faulted (.addressOutOfRange (s.pc.toNat + 1))) ∧
      (s.pc.toNat = 254 → o.format.nops = 2 → t.rs = .faulted (.addressOutOfRange (s.pc.toNat + 2)))) ∧
    (∀ i rest, decode s.codeBytes = .ok (i, rest) →
      (∀ idx, s.firstBadRegister i = some idx → t.rs = .faulted (.invalidRegister idx)) ∧
      (s.firstBadRegister i = none →
        (∀ a b, i = .mod a b → (∀ hb : b.toNat < 8, s.reg ⟨b.toNat, hb⟩ = 0) → t.rs = .faulted (.divisionByZero b)) ∧
        (∀ a, i = .call a → s.pc.toNat = 254 → t.rs = .faulted (.addressOutOfRange (s.pc.toNat + 2)))))

/-- spec/60_exceptions.md R132: an instruction raises InvalidRegister exactly when a register operand it reads or writes in this
state is above 7, and records the first such operand, opa before opb. JEQ and JNE use theirs only when the branch is taken (D18,
log entry 14); LDI's immediate is never checked. -/
def Obligations.InvalidRegisterExactlyWhen : Prop :=
  ∀ (i : Instr) (s t : State) (idx : Byte), s.rs = .running → exec i s = .next t →
    (t.rs = .faulted (.invalidRegister idx) ↔ s.firstBadRegister i = some idx)

/-- spec/60_exceptions.md R131: a cycle raises AddressOutOfRange exactly when the pc is above 255, an operand byte lies above 255,
or a CALL with a register operand stands at 254; no stack access and no jump target raises it (D5, D6, D10, log entries 4, 5,
9). -/
def Obligations.AddressOutOfRangeExactlyWhen : Prop :=
  ∀ (s t : State) (addr : Nat), s.rs = .running → step s = .next t →
    (t.rs = .faulted (.addressOutOfRange addr) ↔
      (255 < s.pc.toNat ∧ addr = s.pc.toNat) ∨
      (s.pc.toNat ≤ 255 ∧ addr = 256 ∧
        ∃ o, lookup (s.mem.read s.pc.toNat) = some o ∧ 255 < s.pc.toNat + o.format.nops) ∨
      (s.pc.toNat = 254 ∧ addr = 256 ∧ lookup (s.mem.read 254) = some .call ∧ (s.mem.read 255).toNat < 8))

/-- spec/60_exceptions.md R133: DivisionByZero is raised by MOD only, exactly when its operands name registers and the divisor
register holds 0; it records the divisor's register index and changes nothing but the run state (D7, log entry 6). -/
def Obligations.DivisionByZeroExactlyWhen : Prop :=
  ∀ (i : Instr) (s t : State) (b : Byte), s.rs = .running → exec i s = .next t →
    (t.rs = .faulted (.divisionByZero b) ↔
      ∃ a, i = .mod a b ∧ a.toNat < 8 ∧ ∃ hb : b.toNat < 8, s.reg ⟨b.toNat, hb⟩ = 0) ∧
    (t.rs = .faulted (.divisionByZero b) → t = { s with rs := .faulted (.divisionByZero b) })

/-- spec/40_cycle_and_halt.md R73, spec/10_state.md R16: the pc after a step of a running engine. A fault and an unknown opcode
leave it (D7, D8, log entries 6, 7); an instruction that is no control transfer, HLT among them, advances by its length, exactly
once; CALL and JMP set it to their register; RET to the popped byte; JEQ and JNE to their register or 2 on. The register of CALL
is read after the decrement (spec/44_control_transfer.md R116, an inference of the spec, log entry 16). -/
def Obligations.PcUpdatedExactlyOnce : Prop :=
  ∀ s t : State, s.rs = .running → step s = .next t →
    (∀ f, t.rs = .faulted f → t.pc = s.pc) ∧
    (∀ b, t.rs = .halted (.unknownOpcode b) → t.pc = s.pc) ∧
    (∀ i rest, decode s.codeBytes = .ok (i, rest) → (∀ f, t.rs ≠ .faulted f) →
      match i with
      | .call a => ∀ ha : a.toNat < 8, t.pc.toNat = (t.reg ⟨a.toNat, ha⟩).toNat
      | .ret => t.pc.toNat = (s.mem.read (s.reg 7).toNat).toNat
      | .jmp a => ∀ ha : a.toNat < 8, t.pc.toNat = (s.reg ⟨a.toNat, ha⟩).toNat
      | .jeq a =>
        if s.fl.equal then ∀ ha : a.toNat < 8, t.pc.toNat = (s.reg ⟨a.toNat, ha⟩).toNat else t.pc.toNat = s.pc.toNat + 2
      | .jne a =>
        if s.fl.equal then t.pc.toNat = s.pc.toNat + 2 else ∀ ha : a.toNat < 8, t.pc.toNat = (s.reg ⟨a.toNat, ha⟩).toNat
      | i => t.pc.toNat = s.pc.toNat + i.length)

/-! ## The instructions: encoding, completion with the exact next state, and where the form traps instead -/

/-- HLT (spec/40_cycle_and_halt.md R76; opcode value D1, log entry 1): always completes; the run state becomes Halted(Hlt), the
pc advances by 1 (255 to 256), nothing else changes. -/
def Obligations.HltHaltsAndAdvances : Prop :=
  encode .hlt = [0x01] ∧
  ∀ s : State,
    exec .hlt s = .next { s with rs := .halted .hlt, pc := s.pc + 1 } ∧
    (s.pc.toNat = 255 → ∀ t, exec .hlt s = .next t → t.pc.toNat = 256)

/-- LDI (spec/41_load_and_print.md R85; opcode value D1, log entry 1): with a register operand up to 7 the immediate is stored
unchanged and the pc advances by 3; above 7 it raises InvalidRegister and nothing else changes. -/
def Obligations.LdiLoadsTheImmediate : Prop :=
  ∀ (a imm : Byte) (s : State),
    encode (.ldi a imm) = [0x82, a, imm] ∧
    (∀ ha : a.toNat < 8, exec (.ldi a imm) s = .next { s with regs := s.regs.set a.toNat imm ha, pc := s.pc + 3 }) ∧
    (7 < a.toNat → exec (.ldi a imm) s = .next { s with rs := .faulted (.invalidRegister a) })

/-- PRN (spec/41_load_and_print.md R86; opcode value D1, log entry 1): the register's byte is appended to the output trace and the
pc advances by 2; above 7 it raises InvalidRegister and outputs nothing. -/
def Obligations.PrnEmitsTheRegister : Prop :=
  ∀ (a : Byte) (s : State),
    encode (.prn a) = [0x47, a] ∧
    (∀ ha : a.toNat < 8, exec (.prn a) s = .next { s with out := s.out ++ [s.reg ⟨a.toNat, ha⟩], pc := s.pc + 2 }) ∧
    (7 < a.toNat → exec (.prn a) s = .next { s with rs := .faulted (.invalidRegister a) })

/-- ADD (spec/42_alu.md R91, R101, R102; opcode value D1, 8-bit width D2, log entries 1, 15): the sum modulo 256. -/
def Obligations.AddResult : Prop :=
  ∀ (a b : Byte) (s : State),
    encode (.add a b) = [0xA0, a, b] ∧
    (∀ (ha : a.toNat < 8) (hb : b.toNat < 8), exec (.add a b) s = .next { s with
      regs := s.regs.set a.toNat (BitVec.ofNat 8 (((s.reg ⟨a.toNat, ha⟩).toNat + (s.reg ⟨b.toNat, hb⟩).toNat) % 256)) ha,
      pc := s.pc + 3 }) ∧
    (7 < a.toNat → exec (.add a b) s = .next { s with rs := .faulted (.invalidRegister a) }) ∧
    (a.toNat < 8 → 7 < b.toNat → exec (.add a b) s = .next { s with rs := .faulted (.invalidRegister b) })

/-- MUL (spec/42_alu.md R92, R101, R102; opcode value D1, 8-bit width D2, log entries 1, 15): the low 8 bits of the product. -/
def Obligations.MulResult : Prop :=
  ∀ (a b : Byte) (s : State),
    encode (.mul a b) = [0xA2, a, b] ∧
    (∀ (ha : a.toNat < 8) (hb : b.toNat < 8), exec (.mul a b) s = .next { s with
      regs := s.regs.set a.toNat (BitVec.ofNat 8 (((s.reg ⟨a.toNat, ha⟩).toNat * (s.reg ⟨b.toNat, hb⟩).toNat) % 256)) ha,
      pc := s.pc + 3 }) ∧
    (7 < a.toNat → exec (.mul a b) s = .next { s with rs := .faulted (.invalidRegister a) }) ∧
    (a.toNat < 8 → 7 < b.toNat → exec (.mul a b) s = .next { s with rs := .faulted (.invalidRegister b) })

/-- CMP (spec/42_alu.md R93, spec/10_state.md R18; opcode value D1, log entry 1; the direction of less and greater is an inference
of the spec, log entry 16): all three flags are written from the unsigned comparison, exactly one set; no register changes. On
InvalidRegister the flags keep their values. -/
def Obligations.CmpSetsExactlyOneFlag : Prop :=
  ∀ (a b : Byte) (s : State),
    encode (.cmp a b) = [0xA7, a, b] ∧
    (∀ (ha : a.toNat < 8) (hb : b.toNat < 8), exec (.cmp a b) s = .next { s with
      fl := {
        less := decide ((s.reg ⟨a.toNat, ha⟩).toNat < (s.reg ⟨b.toNat, hb⟩).toNat),
        greater := decide ((s.reg ⟨b.toNat, hb⟩).toNat < (s.reg ⟨a.toNat, ha⟩).toNat),
        equal := decide (s.reg ⟨a.toNat, ha⟩ = s.reg ⟨b.toNat, hb⟩) },
      pc := s.pc + 3 }) ∧
    (7 < a.toNat → exec (.cmp a b) s = .next { s with rs := .faulted (.invalidRegister a) }) ∧
    (a.toNat < 8 → 7 < b.toNat → exec (.cmp a b) s = .next { s with rs := .faulted (.invalidRegister b) })

/-- AND (spec/42_alu.md R94, R102; opcode value D1, log entry 1): the bitwise and. -/
def Obligations.AndResult : Prop :=
  ∀ (a b : Byte) (s : State),
    encode (.and a b) = [0xA8, a, b] ∧
    (∀ (ha : a.toNat < 8) (hb : b.toNat < 8), exec (.and a b) s = .next { s with
      regs := s.regs.set a.toNat (s.reg ⟨a.toNat, ha⟩ &&& s.reg ⟨b.toNat, hb⟩) ha, pc := s.pc + 3 }) ∧
    (7 < a.toNat → exec (.and a b) s = .next { s with rs := .faulted (.invalidRegister a) }) ∧
    (a.toNat < 8 → 7 < b.toNat → exec (.and a b) s = .next { s with rs := .faulted (.invalidRegister b) })

/-- OR (spec/42_alu.md R95, R102; opcode value D1, log entry 1): the bitwise or. -/
def Obligations.OrResult : Prop :=
  ∀ (a b : Byte) (s : State),
    encode (.or a b) = [0xAA, a, b] ∧
    (∀ (ha : a.toNat < 8) (hb : b.toNat < 8), exec (.or a b) s = .next { s with
      regs := s.regs.set a.toNat (s.reg ⟨a.toNat, ha⟩ ||| s.reg ⟨b.toNat, hb⟩) ha, pc := s.pc + 3 }) ∧
    (7 < a.toNat → exec (.or a b) s = .next { s with rs := .faulted (.invalidRegister a) }) ∧
    (a.toNat < 8 → 7 < b.toNat → exec (.or a b) s = .next { s with rs := .faulted (.invalidRegister b) })

/-- XOR (spec/42_alu.md R96, R102; opcode value D1, log entry 1): the bitwise exclusive or; a register with itself gives 0. -/
def Obligations.XorResult : Prop :=
  ∀ (a b : Byte) (s : State),
    encode (.xor a b) = [0xAB, a, b] ∧
    (∀ (ha : a.toNat < 8) (hb : b.toNat < 8), exec (.xor a b) s = .next { s with
      regs := s.regs.set a.toNat (s.reg ⟨a.toNat, ha⟩ ^^^ s.reg ⟨b.toNat, hb⟩) ha, pc := s.pc + 3 }) ∧
    (∀ ha : a.toNat < 8, ∃ t, exec (.xor a a) s = .next t ∧ t.reg ⟨a.toNat, ha⟩ = 0) ∧
    (7 < a.toNat → exec (.xor a b) s = .next { s with rs := .faulted (.invalidRegister a) }) ∧
    (a.toNat < 8 → 7 < b.toNat → exec (.xor a b) s = .next { s with rs := .faulted (.invalidRegister b) })

/-- NOT (spec/42_alu.md R97, R102, C6; opcode value D1, log entry 1): 255 minus the value; one operand byte, two bytes long. -/
def Obligations.NotResult : Prop :=
  ∀ (a : Byte) (s : State),
    encode (.not a) = [0x69, a] ∧
    (∀ ha : a.toNat < 8, exec (.not a) s = .next { s with
      regs := s.regs.set a.toNat (BitVec.ofNat 8 (255 - (s.reg ⟨a.toNat, ha⟩).toNat)) ha, pc := s.pc + 2 }) ∧
    (7 < a.toNat → exec (.not a) s = .next { s with rs := .faulted (.invalidRegister a) })

/-- SHL (spec/42_alu.md R98, R102; opcode value D1; the count is the whole byte, D20; log entries 1, 13): the value times 2 to the
count, modulo 256; a count of 8 or more gives 0. -/
def Obligations.ShlResult : Prop :=
  ∀ (a b : Byte) (s : State),
    encode (.shl a b) = [0xAC, a, b] ∧
    (∀ (ha : a.toNat < 8) (hb : b.toNat < 8), exec (.shl a b) s = .next { s with
      regs := s.regs.set a.toNat
        (BitVec.ofNat 8 (((s.reg ⟨a.toNat, ha⟩).toNat * 2 ^ (s.reg ⟨b.toNat, hb⟩).toNat) % 256)) ha,
      pc := s.pc + 3 }) ∧
    (∀ (ha : a.toNat < 8) (hb : b.toNat < 8), 8 ≤ (s.reg ⟨b.toNat, hb⟩).toNat →
      exec (.shl a b) s = .next { s with regs := s.regs.set a.toNat 0 ha, pc := s.pc + 3 }) ∧
    (7 < a.toNat → exec (.shl a b) s = .next { s with rs := .faulted (.invalidRegister a) }) ∧
    (a.toNat < 8 → 7 < b.toNat → exec (.shl a b) s = .next { s with rs := .faulted (.invalidRegister b) })

/-- SHR (spec/42_alu.md R99, R102; opcode value D1; logical, the count is the whole byte, D20; log entries 1, 13): the value
divided by 2 to the count; a count of 8 or more gives 0. -/
def Obligations.ShrResult : Prop :=
  ∀ (a b : Byte) (s : State),
    encode (.shr a b) = [0xAD, a, b] ∧
    (∀ (ha : a.toNat < 8) (hb : b.toNat < 8), exec (.shr a b) s = .next { s with
      regs := s.regs.set a.toNat
        (BitVec.ofNat 8 ((s.reg ⟨a.toNat, ha⟩).toNat / 2 ^ (s.reg ⟨b.toNat, hb⟩).toNat)) ha,
      pc := s.pc + 3 }) ∧
    (∀ (ha : a.toNat < 8) (hb : b.toNat < 8), 8 ≤ (s.reg ⟨b.toNat, hb⟩).toNat →
      exec (.shr a b) s = .next { s with regs := s.regs.set a.toNat 0 ha, pc := s.pc + 3 }) ∧
    (7 < a.toNat → exec (.shr a b) s = .next { s with rs := .faulted (.invalidRegister a) }) ∧
    (a.toNat < 8 → 7 < b.toNat → exec (.shr a b) s = .next { s with rs := .faulted (.invalidRegister b) })

/-- MOD (spec/42_alu.md R100, R102; opcode value D1, log entry 1): with a divisor that is not 0, the unsigned remainder; with a
divisor of 0, DivisionByZero(opb), the destination unchanged (D7, log entry 6). -/
def Obligations.ModResult : Prop :=
  ∀ (a b : Byte) (s : State),
    encode (.mod a b) = [0xA4, a, b] ∧
    (∀ (ha : a.toNat < 8) (hb : b.toNat < 8), s.reg ⟨b.toNat, hb⟩ ≠ 0 → exec (.mod a b) s = .next { s with
      regs := s.regs.set a.toNat (BitVec.ofNat 8 ((s.reg ⟨a.toNat, ha⟩).toNat % (s.reg ⟨b.toNat, hb⟩).toNat)) ha,
      pc := s.pc + 3 }) ∧
    (∀ (_ : a.toNat < 8) (hb : b.toNat < 8), s.reg ⟨b.toNat, hb⟩ = 0 →
      exec (.mod a b) s = .next { s with rs := .faulted (.divisionByZero b) }) ∧
    (7 < a.toNat → exec (.mod a b) s = .next { s with rs := .faulted (.invalidRegister a) }) ∧
    (a.toNat < 8 → 7 < b.toNat → exec (.mod a b) s = .next { s with rs := .faulted (.invalidRegister b) })

/-- PUSH (spec/43_stack.md R110, R111; opcode value D1, wrap D9, log entries 1, 8; PUSH R7 storing the decremented value is an
inference of the spec, log entry 16): register 7 is decremented modulo 256 and the register, read after that, is stored at the
new stack pointer; no other register or cell changes. The memory is assumed canonical (StepKeepsTheStateInvariants). -/
def Obligations.PushResult : Prop :=
  ∀ (a : Byte) (s : State),
    encode (.push a) = [0x45, a] ∧
    (∀ ha : a.toNat < 8, s.mem.wf = true → ∃ t, exec (.push a) s = .next t ∧
      (t.reg 7).toNat = ((s.reg 7).toNat + 255) % 256 ∧ (∀ r : Fin 8, r ≠ 7 → t.reg r = s.reg r) ∧
      t.mem.read (t.reg 7).toNat = (if a = 7 then t.reg 7 else s.reg ⟨a.toNat, ha⟩) ∧
      (∀ x, x ≠ (t.reg 7).toNat → t.mem.read x = s.mem.read x) ∧
      t.pc = s.pc + 2 ∧ t.fl = s.fl ∧ t.rs = s.rs ∧ t.out = s.out) ∧
    (7 < a.toNat → exec (.push a) s = .next { s with rs := .faulted (.invalidRegister a) })

/-- POP (spec/43_stack.md R110, R112; opcode value D1, wrap D9, log entries 1, 8; POP R7 ending at the popped byte plus 1 is an
inference of the spec, log entry 16): the register is loaded from the stack pointer, then register 7 is incremented modulo 256;
memory is not modified. -/
def Obligations.PopResult : Prop :=
  ∀ (a : Byte) (s : State),
    encode (.pop a) = [0x46, a] ∧
    (∀ ha : a.toNat < 8, ∃ t, exec (.pop a) s = .next t ∧
      (a ≠ 7 → t.reg ⟨a.toNat, ha⟩ = s.mem.read (s.reg 7).toNat ∧ (t.reg 7).toNat = ((s.reg 7).toNat + 1) % 256) ∧
      (a = 7 → (t.reg 7).toNat = ((s.mem.read (s.reg 7).toNat).toNat + 1) % 256) ∧
      (∀ r : Fin 8, r ≠ 7 → r.val ≠ a.toNat → t.reg r = s.reg r) ∧
      t.pc = s.pc + 2 ∧ t.mem = s.mem ∧ t.fl = s.fl ∧ t.rs = s.rs ∧ t.out = s.out) ∧
    (7 < a.toNat → exec (.pop a) s = .next { s with rs := .faulted (.invalidRegister a) })

/-- CALL (spec/44_control_transfer.md R116; opcode value D1, wrap D9, return-address check D10, log entries 1, 8, 9; the target
being read after the decrement is an inference of the spec, log entry 16): register 7 is decremented, pc + 2 is stored there and
the pc set to the register; at a pc above 253 it raises AddressOutOfRange(pc + 2) before anything changes, and InvalidRegister
comes before that. The memory is assumed canonical (StepKeepsTheStateInvariants). -/
def Obligations.CallResult : Prop :=
  ∀ (a : Byte) (s : State),
    encode (.call a) = [0x50, a] ∧
    (∀ ha : a.toNat < 8, s.mem.wf = true → s.pc.toNat ≤ 253 → ∃ t, exec (.call a) s = .next t ∧
      (t.reg 7).toNat = ((s.reg 7).toNat + 255) % 256 ∧ (∀ r : Fin 8, r ≠ 7 → t.reg r = s.reg r) ∧
      (t.mem.read (t.reg 7).toNat).toNat = s.pc.toNat + 2 ∧
      (∀ x, x ≠ (t.reg 7).toNat → t.mem.read x = s.mem.read x) ∧
      t.pc.toNat = (if a = 7 then t.reg 7 else s.reg ⟨a.toNat, ha⟩).toNat ∧
      t.fl = s.fl ∧ t.rs = s.rs ∧ t.out = s.out) ∧
    (a.toNat < 8 → 254 ≤ s.pc.toNat →
      exec (.call a) s = .next { s with rs := .faulted (.addressOutOfRange (s.pc.toNat + 2)) }) ∧
    (7 < a.toNat → exec (.call a) s = .next { s with rs := .faulted (.invalidRegister a) })

/-- RET (spec/44_control_transfer.md R117; opcode value D1, wrap D9, log entries 1, 8): always completes: the pc is the byte at
the stack pointer, zero-extended, and register 7 is incremented modulo 256; memory is not modified. -/
def Obligations.RetResult : Prop :=
  encode .ret = [0x11] ∧
  ∀ s : State, ∃ t, exec .ret s = .next t ∧
    t.pc.toNat = (s.mem.read (s.reg 7).toNat).toNat ∧ (t.reg 7).toNat = ((s.reg 7).toNat + 1) % 256 ∧
    (∀ r : Fin 8, r ≠ 7 → t.reg r = s.reg r) ∧ t.mem = s.mem ∧ t.fl = s.fl ∧ t.rs = s.rs ∧ t.out = s.out

/-- JMP (spec/44_control_transfer.md R118; opcode value D1, log entry 1): the pc is the register's value; nothing else changes. -/
def Obligations.JmpResult : Prop :=
  ∀ (a : Byte) (s : State),
    encode (.jmp a) = [0x54, a] ∧
    (∀ ha : a.toNat < 8, exec (.jmp a) s = .next { s with pc := BitVec.ofNat 9 (s.reg ⟨a.toNat, ha⟩).toNat }) ∧
    (7 < a.toNat → exec (.jmp a) s = .next { s with rs := .faulted (.invalidRegister a) })

/-- JEQ (spec/44_control_transfer.md R119; opcode value D1, register checked only when taken D18, log entries 1, 14): with equal
set it jumps to the register, or raises InvalidRegister; with equal clear it advances by 2 whatever its operand. -/
def Obligations.JeqResult : Prop :=
  ∀ (a : Byte) (s : State),
    encode (.jeq a) = [0x55, a] ∧
    (s.fl.equal = true → ∀ ha : a.toNat < 8,
      exec (.jeq a) s = .next { s with pc := BitVec.ofNat 9 (s.reg ⟨a.toNat, ha⟩).toNat }) ∧
    (s.fl.equal = true → 7 < a.toNat → exec (.jeq a) s = .next { s with rs := .faulted (.invalidRegister a) }) ∧
    (s.fl.equal = false → exec (.jeq a) s = .next { s with pc := s.pc + 2 })

/-- JNE (spec/44_control_transfer.md R120; opcode value D1, register checked only when taken D18, log entries 1, 14): the exact
complement of JEQ. -/
def Obligations.JneResult : Prop :=
  ∀ (a : Byte) (s : State),
    encode (.jne a) = [0x56, a] ∧
    (s.fl.equal = false → ∀ ha : a.toNat < 8,
      exec (.jne a) s = .next { s with pc := BitVec.ofNat 9 (s.reg ⟨a.toNat, ha⟩).toNat }) ∧
    (s.fl.equal = false → 7 < a.toNat → exec (.jne a) s = .next { s with rs := .faulted (.invalidRegister a) }) ∧
    (s.fl.equal = true → exec (.jne a) s = .next { s with pc := s.pc + 2 })

/-! ## Frames -/

/-- The instructions that write one register (LDI, ADD, MUL, AND, OR, XOR, NOT, SHL, SHR, MOD) leave every other register, every
flag, every byte of memory and the output trace unchanged, and the run state too unless they fault (spec/10_state.md R13, R17,
spec/20_memory.md R37). -/
def Obligations.RegisterWritersFrame : Prop :=
  ∀ (a b : Byte) (i : Instr) (s t : State),
    i ∈ [Instr.ldi a b, .add a b, .mul a b, .and a b, .or a b, .xor a b, .not a, .shl a b, .shr a b, .mod a b] →
    exec i s = .next t →
    (∀ r : Fin 8, r.val ≠ a.toNat → t.reg r = s.reg r) ∧ t.fl = s.fl ∧ t.out = s.out ∧
    (∀ x, t.mem.read x = s.mem.read x) ∧ (t.rs = s.rs ∨ ∃ f, t.rs = .faulted f)

/-- The instructions that write no register (HLT, PRN, CMP, JMP, JEQ, JNE) leave every register and every byte of memory
unchanged; the flags too but for CMP, the output trace but for PRN, and the run state but for HLT and a fault
(spec/10_state.md R13, R17, spec/20_memory.md R37). -/
def Obligations.NoRegisterWrittenFrame : Prop :=
  ∀ (a b : Byte) (i : Instr) (s t : State),
    i ∈ [Instr.hlt, .prn a, .cmp a b, .jmp a, .jeq a, .jne a] → exec i s = .next t →
    (∀ r : Fin 8, t.reg r = s.reg r) ∧ (∀ x, t.mem.read x = s.mem.read x) ∧
    (i ≠ .cmp a b → t.fl = s.fl) ∧ (i ≠ .prn a → t.out = s.out) ∧
    (i ≠ .hlt → t.rs = s.rs ∨ ∃ f, t.rs = .faulted f)

/-- The storing instructions (PUSH, CALL) leave every register but register 7, every flag, the output trace, and every byte of
memory but the one at the decremented stack pointer unchanged, and the run state unless they fault; the address is computed as
the meaning computes it (spec/10_state.md R13, spec/20_memory.md R37). -/
def Obligations.StoringInstructionsFrame : Prop :=
  ∀ (a : Byte) (i : Instr) (s t : State), i ∈ [Instr.push a, .call a] → exec i s = .next t →
    (∀ r : Fin 8, r ≠ 7 → t.reg r = s.reg r) ∧ t.fl = s.fl ∧ t.out = s.out ∧
    (∀ x, x ≠ s.decSp.sp.toNat → t.mem.read x = s.mem.read x) ∧ (t.rs = s.rs ∨ ∃ f, t.rs = .faulted f)

/-- The loading instructions (POP, RET) leave every byte of memory, every flag and the output trace unchanged, every register but
register 7 and, for POP, its operand, and the run state unless they fault (spec/10_state.md R13, spec/20_memory.md R37). -/
def Obligations.LoadingInstructionsFrame : Prop :=
  ∀ (a : Byte) (i : Instr) (s t : State), i ∈ [Instr.pop a, .ret] → exec i s = .next t →
    (∀ r : Fin 8, r ≠ 7 → (i = .pop a → r.val ≠ a.toNat) → t.reg r = s.reg r) ∧ t.fl = s.fl ∧ t.out = s.out ∧
    (∀ x, t.mem.read x = s.mem.read x) ∧ (t.rs = s.rs ∨ ∃ f, t.rs = .faulted f)

/-! ## Whole-machine rules -/

/-- spec/10_state.md R17: in every cycle of every instruction the flags change only if the opcode at the pc is CMP's. -/
def Obligations.OnlyCmpWritesFlags : Prop :=
  ∀ s t : State, step s = .next t → t.fl ≠ s.fl →
    s.rs = .running ∧ lookup (s.mem.read s.pc.toNat) = some .cmp

/-- spec/10_state.md R17: an instruction that is neither JEQ nor JNE does the same whatever the flags are, and no instruction
depends on less or greater (which the spec derives from its instruction table): two runs of an instruction from states that
differ only there end in states that differ at most in the flags. -/
def Obligations.FlagsReadOnlyByJeqJne : Prop :=
  ∀ (i : Instr) (s t t' : State) (f : Flags),
    ((∃ a, i = .jeq a ∨ i = .jne a) → f.equal = s.fl.equal) →
    exec i s = .next t → exec i { s with fl := f } = .next t' → { t' with fl := t.fl } = t

/-- spec/10_state.md R22, spec/20_memory.md R37: in every cycle memory changes only if the opcode at the pc is PUSH's or CALL's,
and then only in the cell below the stack pointer (modulo 256: D9, log entry 8). That these two are the only writers the spec
derives from its instruction table. -/
def Obligations.OnlyPushAndCallWriteMemory : Prop :=
  ∀ s t : State, step s = .next t → t.mem ≠ s.mem →
    s.rs = .running ∧
    (lookup (s.mem.read s.pc.toNat) = some .push ∨ lookup (s.mem.read s.pc.toNat) = some .call) ∧
    ∀ x, x ≠ ((s.reg 7).toNat + 255) % 256 → t.mem.read x = s.mem.read x

/-- spec/10_state.md R24, R28: the output trace only grows, by at most one byte a cycle, and only when the opcode at the pc is
PRN's (that it only grows the spec derives from its instruction rules). -/
def Obligations.OutputOnlyGrowsByPrn : Prop :=
  ∀ s t : State, step s = .next t →
    t.out = s.out ∨
    (s.rs = .running ∧ lookup (s.mem.read s.pc.toNat) = some .prn ∧ ∃ v, t.out = s.out ++ [v])

/-- spec/44_control_transfer.md R115: the five control transfers, when they transfer, set the pc to an 8-bit value with no
offset or scaling, so it lies in [0,255]: the operand register's value as the instruction reads it, or the popped byte; no
advance is added. JEQ and JNE transfer on `equal` alone. CALL reads its register after the decrement, so CALL R7 goes to the
decremented stack pointer (R116, an inference of the spec, log entry 16). -/
def Obligations.TransfersSetAByteAddress : Prop :=
  ∀ (a : Byte) (i : Instr) (s t : State), s.rs = .running → i ∈ [Instr.call a, .ret, .jmp a, .jeq a, .jne a] →
    exec i s = .next t → t.rs = .running →
    (i = .jeq a → s.fl.equal = true) → (i = .jne a → s.fl.equal = false) →
    t.pc.toNat ≤ 255 ∧
    (i = .ret → t.pc.toNat = (s.mem.read (s.reg 7).toNat).toNat) ∧
    (i ≠ .ret → ∃ ha : a.toNat < 8, t.pc.toNat = (t.reg ⟨a.toNat, ha⟩).toNat)

/-- spec/43_stack.md R113: a PUSH Rr followed immediately by a POP Rr2, for r and r2 other than 7 and provided the PUSH did not
overwrite the POP, leaves Rr2 with Rr's original value and restores the stack pointer (the provisos are the spec's inference, C10;
opcode values D1, log entry 1). -/
def Obligations.PushThenPop : Prop :=
  ∀ (s : State) (r r2 : Fin 8), s.Inv → s.rs = .running → s.pc.toNat ≤ 252 → r ≠ 7 → r2 ≠ 7 →
    s.mem.read s.pc.toNat = 0x45 → s.mem.read (s.pc.toNat + 1) = BitVec.ofNat 8 r.val →
    s.mem.read (s.pc.toNat + 2) = 0x46 → s.mem.read (s.pc.toNat + 3) = BitVec.ofNat 8 r2.val →
    ((s.reg 7).toNat + 255) % 256 ≠ s.pc.toNat + 2 → ((s.reg 7).toNat + 255) % 256 ≠ s.pc.toNat + 3 →
    ∃ t, runFor 2 s = .next t ∧ t.reg r2 = s.reg r ∧ t.reg 7 = s.reg 7 ∧ t.pc.toNat = s.pc.toNat + 4 ∧ t.rs = .running

/-- spec/44_control_transfer.md R121: after a CALL at a pc the engine comes, by whatever steps, to a RET with the stack pointer and
the saved byte as the CALL left them: the RET goes to the instruction after the CALL and restores the stack pointer (the
provisos are the spec's inference). -/
def Obligations.CallThenRet : Prop :=
  ∀ (a : Byte) (s t u v : State), s.Inv → s.rs = .running → exec (.call a) s = .next t → t.rs = .running →
    u.reg 7 = t.reg 7 → u.mem.read (t.reg 7).toNat = t.mem.read (t.reg 7).toNat → exec .ret u = .next v →
    v.pc.toNat = s.pc.toNat + 2 ∧ v.reg 7 = s.reg 7

/-- spec/20_memory.md R40: a byte stored by PUSH over the next instruction's opcode is what the very next cycle fetches: an
unrecognised one halts the engine with it as diagnostic, and HLT's halts it as HLT (D15, opcode values D1, log entries 20, 1). -/
def Obligations.StoreIsSeenByTheNextFetch : Prop :=
  ∀ (s : State) (r : Fin 8), s.Inv → s.rs = .running → s.pc.toNat ≤ 253 → r ≠ 7 →
    s.mem.read s.pc.toNat = 0x45 → s.mem.read (s.pc.toNat + 1) = BitVec.ofNat 8 r.val →
    ((s.reg 7).toNat + 255) % 256 = s.pc.toNat + 2 →
    ∃ t, runFor 2 s = .next t ∧
      (s.reg r = 0x01 → t.rs = .halted .hlt ∧ t.pc.toNat = s.pc.toNat + 3) ∧
      (lookup (s.reg r) = none → t.rs = .halted (.unknownOpcode (s.reg r)) ∧ t.pc.toNat = s.pc.toNat + 2)

/-! ## Memory and registers -/

/-- spec/20_memory.md R30 (and the contract of R31): 256 cells at addresses 0 to 255, every one readable and writable; reading
gives the byte written last and leaves the other cells as they were; outside [0,255] read and write both fail. The memory is
assumed canonical (StepKeepsTheStateInvariants), and stays so. -/
def Obligations.MemoryIsAFlatStore : Prop :=
  ∀ (m : Memory) (a : Nat) (v : Byte), m.wf = true →
    (a ≤ 255 → ∃ m', m.write? a v = some m' ∧ m'.wf = true ∧ m'.read? a = some v ∧
      ∀ x, x ≠ a → m'.read? x = m.read? x) ∧
    (a ≤ 255 → m.read? a = some (m.read a)) ∧
    (255 < a → m.read? a = none ∧ m.write? a v = none)

/-- spec/10_state.md R11: a register index is a whole operand byte; access fails exactly above 7, raising
InvalidRegister(index), with no reduction modulo 8; a
register reads as what was last written to it and no other changes; and an instruction whose register operands are all at most
7, register 7 among them, never raises InvalidRegister. -/
def Obligations.RegisterAccessContract : Prop :=
  (∀ b : Byte, regIdx? b = none ↔ 7 < b.toNat) ∧
  (∀ (b : Byte) (r : Fin 8), regIdx? b = some r → r.val = b.toNat) ∧
  (∀ (b : Byte) (s : State) (k : RegIdx → Result), 7 < b.toNat →
    withReg b s k = .next { s with rs := .faulted (.invalidRegister b) }) ∧
  (∀ (s : State) (r q : Fin 8) (v : Byte), (s.setReg r v).reg q = if q = r then v else s.reg q) ∧
  (∀ (i : Instr) (s t : State) (idx : Byte), i.wellFormed = true → s.rs = .running → exec i s = .next t →
    t.rs ≠ .faulted (.invalidRegister idx))

/-! ## Reset, boot, invariants -/

/-- spec/10_state.md R27, spec/70_reset_and_hazards.md R160: the reset state: R0 to R6 are 0 (D3, log entry 2), register 7 is 0xF4,
the pc 0, the flags 0 (D4, log entry 3), every cell 0, the engine Running, the output empty; and the reset transaction gives it
from any state. -/
def Obligations.ResetValues : Prop :=
  (∀ r : Fin 8, State.reset.reg r = if r = 7 then 0xF4 else 0) ∧ State.reset.pc = 0 ∧
  State.reset.fl = ⟨false, false, false⟩ ∧ (∀ a, a < 256 → State.reset.mem.read? a = some 0) ∧
  State.reset.rs = .running ∧ State.reset.out = [] ∧
  (∀ c : Session, perform .reset c = some (.next ⟨State.reset, .beforeFirstStep⟩))

/-- Execution starts at address 0, a constant, whatever image is loaded (spec/70_reset_and_hazards.md R161): the first cycle after
reset and load runs the instruction at the image's start, whichever of the 20 it is (spec/40_cycle_and_halt.md R70; HLT leaves the
pc at 1, R76), and halts on a first byte that is no opcode with the pc still 0 (spec/60_exceptions.md R140, D8, log entry 7). -/
def Obligations.ExecutionStartsAtAddressZero : Prop :=
  ∀ (image : List Byte) (s : State), boot image = some s →
    s.pc = 0 ∧ s.rs = .running ∧
    (∀ b rest, image = b :: rest → lookup b = none → step s = .next { s with rs := .halted (.unknownOpcode b) }) ∧
    (∀ rest, image = opMap .hlt :: rest → step s = .next { s with rs := .halted .hlt, pc := 1 }) ∧
    (∀ i rest, image = encode i ++ rest → step s = exec i s)

/-- spec/70_reset_and_hazards.md R162, R163: reset and load of an image of at most 256 bytes put byte i in cell i, leave the
other cells 0 and everything but memory at its reset value; a longer image is not started (D16). A load is performed exactly
before the first step after a reset, and puts 0 in the cells beyond its image even after an earlier load (that a second load is
performed at all is the model's choice, log entry 19); once a step has been made every transaction but reset is cycles and nothing
else, so that nothing but reset can come between two cycles (spec/10_state.md R23, spec/20_memory.md R41,
spec/60_exceptions.md R141; that a run of no cycles is no step, log entry 21). -/
def Obligations.BootLoadsTheImage : Prop :=
  (∀ image : List Byte,
    (image.length ≤ 256 → ∃ s, boot image = some s ∧
      (∀ a, a < 256 → s.mem.read a = (image[a]?).getD 0) ∧ { s with mem := State.reset.mem } = State.reset ∧
      perform (.load image) Session.reset = some (.next ⟨s, .beforeFirstStep⟩)) ∧
    (256 < image.length → boot image = none) ∧
    ∀ c : Session,
      (perform (.load image) c ≠ none ↔ c.phase = .beforeFirstStep ∧ image.length ≤ 256) ∧
      ∀ d, perform (.load image) c = some (.next d) →
        d.phase = c.phase ∧ { d.engine with mem := c.engine.mem } = c.engine ∧
        ∀ a, a < 256 → d.engine.mem.read a = (image[a]?).getD 0) ∧
  (∀ c d : Session, perform .step c = some (.next d) → step c.engine = .next d.engine ∧ d.phase = .stepped) ∧
  (∀ (n : Nat) (c d : Session), perform (.runFor n) c = some (.next d) →
    runFor n c.engine = .next d.engine ∧ (0 < n → d.phase = .stepped)) ∧
  (∀ (tr : Transaction) (c d : Session), perform tr c = some (.next d) → c.phase = .stepped → tr ≠ .reset →
    d.phase = .stepped ∧ ∃ n, runFor n c.engine = .next d.engine)

/-- The invariants of spec/10_state.md R28 (the pc at most 256, the flags one of the four values of R18), the canonical form of
the model's memory, and the truth of the stop reason hold after reset and after boot with any image. -/
def Obligations.BootMeetsTheInvariants : Prop :=
  (State.reset.Inv ∧ State.reset.StopReason) ∧
  ∀ (image : List Byte) (s : State), boot image = some s → s.Inv ∧ s.StopReason

/-- Every step keeps the invariants of spec/10_state.md R28, an inference of the spec: from EVERY state in which the memory is
canonical, the pc is at most 256 and the flags are one of the four values of R18, a step gives a state in which they are. -/
def Obligations.StepKeepsTheStateInvariants : Prop :=
  ∀ s t : State, s.Inv → step s = .next t → t.Inv

/-- Every step keeps the truth of the stop reason: in a state reached by a step, Halted(Hlt) stands just after an HLT byte;
Halted(UnknownOpcode(b)) at a byte b that is no opcode; an out-of-range address is 256 and arose at 254 or above; an invalid
register is above 7; a zero divisor register holds 0 (spec/10_state.md R21, spec/60_exceptions.md R131 to R133, R140; D5 to D8,
log entries 4 to 7). -/
def Obligations.StepKeepsTheStopReasonTrue : Prop :=
  ∀ s t : State, s.Inv → s.StopReason → step s = .next t → t.StopReason

/-- spec/40_cycle_and_halt.md R75, R77, spec/60_exceptions.md R130: however many cycles a run from boot makes, its state is
meets the state invariants (spec/10_state.md R28) and the truth of the stop reason (StepKeepsTheStateInvariants and
StepKeepsTheStopReasonTrue, from boot on), and is Running or in exactly one of the three ends, which exclude each other: Halted(Hlt); Halted(UnknownOpcode(b)) with the diagnostic b
and no fault; Faulted, with its number (D7, log entry 6) and no diagnostic; and once ended it stays. -/
def Obligations.RunsEndInOneOfThreeWays : Prop :=
  ∀ (image : List Byte) (s t : State) (n : Nat), boot image = some s → runFor n s = .next t →
    t.Inv ∧ t.StopReason ∧
    (t.stopped = false ∨ t.Successful ∨ (∃ b, t.CleanStop b) ∨ (∃ f, t.ErrorStop f)) ∧
    (t.Successful → t.diagnostic = none ∧ ∀ b f, ¬ t.CleanStop b ∧ ¬ t.ErrorStop f) ∧
    (∀ b, t.CleanStop b → t.diagnostic = some b ∧ ∀ f, ¬ t.ErrorStop f) ∧
    (∀ f, t.ErrorStop f → t.diagnostic = none ∧ f.code ∈ [1, 2, 3]) ∧
    (t.stopped = true → ∀ k, runFor (n + k) s = .next t)
end

