-- ==== Sys2Proof/Laws/Decode.lean ====
section
/-! SUPPORT. The opcode map, lookup and operand assembly: what each can do. -/

namespace Sys2Proof

/-- Every mnemonic is a row of the table. -/
theorem Opcode.mem_all (o : Opcode) : o ∈ Opcode.all := by cases o <;> decide

/-- The 20 opcode values are pairwise distinct (spec/30_encoding.md R57). -/
theorem opMap_injective {o p : Opcode} (h : opMap o = opMap p) : o = p := by
  revert h; cases o <;> cases p <;> decide

/-- A byte that selects a row is the row's opcode. -/
theorem lookupWith_some {m : OpMap} {b : Byte} {o : Opcode} (h : lookupWith m b = some o) : m o = b := by
  simpa using List.find?_some h

/-- A byte selects no row exactly when it is no row's opcode. -/
theorem lookupWith_none {m : OpMap} {b : Byte} : lookupWith m b = none ↔ ∀ o, m o ≠ b := by
  simp [lookupWith, Opcode.mem_all]

/-- Under a map with distinct values, a row's opcode selects the row. -/
theorem lookupWith_self {m : OpMap} (hm : ∀ o p, m o = m p → o = p) (o : Opcode) : lookupWith m (m o) = some o := by
  cases h : lookupWith m (m o) with
  | none => exact absurd rfl (lookupWith_none.mp h o)
  | some p => rw [hm p o (lookupWith_some h)]

theorem lookup_some {b : Byte} {o : Opcode} (h : lookup b = some o) : opMap o = b := lookupWith_some h

@[simp] theorem lookup_opMap (o : Opcode) : lookup (opMap o) = some o :=
  lookupWith_self (fun _ _ => opMap_injective) o

/-- The instruction a format's operand bytes complete has that format's row and those bytes. -/
theorem takeOperands_ok {o : Opcode} {bs rest : List Byte} {i : Instr}
    (h : takeOperands o.format bs = .ok (i, rest)) : i.opcode = o ∧ bs = i.operands ++ rest := by
  cases o <;> rcases bs with _ | ⟨a, _ | ⟨b, bs⟩⟩ <;>
    simp only [Opcode.format, takeOperands, Except.ok.injEq, Prod.mk.injEq, reduceCtorEq] at h <;>
    obtain ⟨rfl, rfl⟩ := h <;> simp [Instr.opcode, Instr.operands]

/-- The number of operand bytes is the format's. -/
@[simp] theorem Instr.operands_length (i : Instr) : i.operands.length = i.opcode.format.nops := by
  cases i <;> rfl

@[simp] theorem encode_length (i : Instr) : (encode i).length = i.length := by
  simp [encode, encodeWith, Instr.length, Nat.add_comm]

end Sys2Proof
end

