-- ==== Sys2Proof/Laws/Memory.lean ====
section
/-! SUPPORT. Memory: the canonical form is kept by every operation, a read gives what was last written, other cells are left
alone, and equal contents are equal data. -/

namespace Sys2Proof.Machine

/-- The canonical form of a list with a first cell. -/
theorem Memory.wf_cons {a : Nat} {v : Byte} {m : Memory} :
    Memory.wf ((a, v) :: m) = true ↔
      a < 256 ∧ v ≠ Memory.unlisted ∧ (∀ c ∈ m, a < c.1) ∧ Memory.wf m = true := by
  simp [Memory.wf, and_assoc]

/-- A cell below every listed address is unlisted. -/
theorem Memory.read_of_lt {m : Memory} {a : Nat} (h : ∀ c ∈ m, a < c.1) : m.read a = Memory.unlisted := by
  induction m with
  | nil => rfl
  | cons c rest ih =>
    have hc : a < c.1 := h c (by simp)
    simp only [Memory.read, Nat.ne_of_lt hc, if_false]
    exact ih fun d hd => h d (by simp [hd])

/-- A write leaves every other cell alone, in any memory. -/
theorem Memory.read_write_ne (m : Memory) {a b : Nat} (v : Byte) (h : b ≠ a) :
    (m.write a v).read b = m.read b := by
  have put (m : Memory) : (Memory.put a v m).read b = m.read b := by
    unfold Memory.put; split <;> simp [Memory.read, h]
  induction m with
  | nil => exact put []
  | cons c rest ih =>
    simp only [Memory.write]
    split
    · exact put _
    · split
      next h2 => rw [put]; simp [Memory.read, h, ← h2]
      next => simp [Memory.read, ih]

/-- A read gives what was written to the same cell of a canonical memory. -/
theorem Memory.read_write_self {m : Memory} (a : Nat) (v : Byte) (h : m.wf = true) :
    (m.write a v).read a = v := by
  have put {m : Memory} (hm : ∀ c ∈ m, a < c.1) : (Memory.put a v m).read a = v := by
    unfold Memory.put; split
    next hv => rw [Memory.read_of_lt hm, hv]
    next => simp [Memory.read]
  induction m with
  | nil => exact put (by simp)
  | cons c rest ih =>
    obtain ⟨-, -, hlt, hw⟩ := Memory.wf_cons.mp h
    simp only [Memory.write]
    split
    next h1 => exact put (by simpa [h1] using fun x y hx => Nat.lt_trans h1 (hlt (x, y) hx))
    next h1 =>
      split
      next h2 => exact put (h2 ▸ hlt)
      next h2 => simp only [Memory.read, h2, if_false]; exact ih hw

/-- A written cell lies below a bound if it and the listed cells do. -/
theorem Memory.lt_of_mem_write {m : Memory} {a b : Nat} {v : Byte} (ha : b < a) (hm : ∀ c ∈ m, b < c.1) :
    ∀ c ∈ m.write a v, b < c.1 := by
  have put {m : Memory} (hm : ∀ c ∈ m, b < c.1) : ∀ c ∈ Memory.put a v m, b < c.1 := by
    unfold Memory.put; split
    · exact hm
    · intro c hc
      rcases List.mem_cons.mp hc with rfl | hc
      · exact ha
      · exact hm c hc
  induction m with
  | nil => exact put hm
  | cons d rest ih =>
    have hr : ∀ c ∈ rest, b < c.1 := fun c hc => hm c (List.mem_cons_of_mem _ hc)
    simp only [Memory.write]
    split
    · exact put hm
    · split
      · exact put hr
      · intro c hc
        rcases List.mem_cons.mp hc with rfl | hc
        · exact hm _ (by simp)
        · exact ih hr c hc

/-- A write to a cell that exists keeps the canonical form. -/
theorem Memory.wf_write {m : Memory} {a : Nat} (v : Byte) (ha : a < 256) (h : m.wf = true) :
    (m.write a v).wf = true := by
  have put {m : Memory} (hm : ∀ c ∈ m, a < c.1) (hw : m.wf = true) : (Memory.put a v m).wf = true := by
    unfold Memory.put; split
    · exact hw
    next hv => exact Memory.wf_cons.mpr ⟨ha, hv, hm, hw⟩
  induction m with
  | nil => exact put (by simp) rfl
  | cons c rest ih =>
    obtain ⟨hc, hv, hlt, hw⟩ := Memory.wf_cons.mp h
    simp only [Memory.write]
    split
    next h1 => exact put (by simpa [h1] using fun x y hx => Nat.lt_trans h1 (hlt (x, y) hx)) h
    next h1 =>
      split
      next h2 => exact put (h2 ▸ hlt) hw
      next h2 => exact Memory.wf_cons.mpr ⟨hc, hv, Memory.lt_of_mem_write (by omega) hlt, ih hw⟩

/-- Two canonical memories with the same contents are the same data. -/
theorem Memory.ext_of_read {m n : Memory} (hm : m.wf = true) (hn : n.wf = true)
    (h : ∀ a, m.read a = n.read a) : m = n := by
  induction m generalizing n with
  | nil =>
    cases n with
    | nil => rfl
    | cons d n =>
      obtain ⟨-, hv, -, -⟩ := Memory.wf_cons.mp hn
      exact absurd (by simpa [Memory.read] using (h d.1).symm) hv
  | cons c m ih =>
    obtain ⟨-, hv, hlt, hw⟩ := Memory.wf_cons.mp hm
    cases n with
    | nil => exact absurd (by simpa [Memory.read] using h c.1) hv
    | cons d n =>
      obtain ⟨-, hv', hlt', hw'⟩ := Memory.wf_cons.mp hn
      have hcd : c.1 = d.1 := by
        rcases Nat.lt_trichotomy c.1 d.1 with hl | he | hg
        · refine absurd ?_ hv
          rw [← Memory.read_of_lt (m := d :: n) (a := c.1) (by simpa [hl] using fun x y hx => Nat.lt_trans hl (hlt' (x, y) hx)), ← h]
          simp [Memory.read]
        · exact he
        · refine absurd ?_ hv'
          rw [← Memory.read_of_lt (m := c :: m) (a := d.1) (by simpa [hg] using fun x y hx => Nat.lt_trans hg (hlt (x, y) hx)), h]
          simp [Memory.read]
      have hcd2 : c = d := by
        have := h c.1
        simp only [Memory.read, hcd, if_true] at this
        exact Prod.ext hcd this
      subst hcd2
      congr 1
      refine ih hw hw' fun a => ?_
      by_cases ha : a = c.1
      · subst ha; rw [Memory.read_of_lt hlt, Memory.read_of_lt hlt']
      · simpa [Memory.read, ha] using h a

/-- A read of a cell that exists. -/
@[simp] theorem Memory.read?_of_lt (m : Memory) {a : Nat} (h : a < 256) : m.read? a = some (m.read a) := by
  simp [Memory.read?, h]

/-- A read outside the address space. -/
@[simp] theorem Memory.read?_of_ge (m : Memory) {a : Nat} (h : 256 ≤ a) : m.read? a = none := by
  simp [Memory.read?]; omega

/-- A write to a cell that exists. -/
@[simp] theorem Memory.write?_of_lt (m : Memory) {a : Nat} (v : Byte) (h : a < 256) :
    m.write? a v = some (m.write a v) := by
  simp [Memory.write?, h]

/-- A byte is an address. -/
theorem byte_lt (b : Byte) : b.toNat < 256 := b.isLt

/-- Writing bytes at consecutive addresses that exist keeps the canonical form. -/
theorem Memory.wf_writeBytes {m : Memory} {a : Nat} (bs : List Byte) (ha : a + bs.length ≤ 256) (h : m.wf = true) :
    (m.writeBytes a bs).wf = true := by
  induction bs generalizing m a with
  | nil => exact h
  | cons b rest ih =>
    simp only [List.length_cons] at ha
    exact ih (by omega) (Memory.wf_write b (by omega) h)

/-- Writing bytes from `a` leaves the cells below `a` alone. -/
theorem Memory.read_writeBytes_lt (m : Memory) {a b : Nat} (bs : List Byte) (h : b < a) :
    (m.writeBytes a bs).read b = m.read b := by
  induction bs generalizing m a with
  | nil => rfl
  | cons c rest ih =>
    simp only [Memory.writeBytes]
    rw [ih (m.write a c) (by omega), Memory.read_write_ne _ _ (by omega)]

/-- Bytes written at consecutive addresses read back; the cells above them are left alone. -/
theorem Memory.read_writeBytes {m : Memory} {a : Nat} (bs : List Byte) (ha : a + bs.length ≤ 256) (h : m.wf = true) (k : Nat) :
    (m.writeBytes a bs).read (a + k) = (bs[k]?).getD (m.read (a + k)) := by
  induction bs generalizing m a k with
  | nil => simp [Memory.writeBytes]
  | cons b rest ih =>
    simp only [List.length_cons] at ha
    simp only [Memory.writeBytes]
    have hw := Memory.wf_write b (by omega : a < 256) h
    cases k with
    | zero => simpa using (Memory.read_writeBytes_lt _ rest (by omega : a < a + 1)).trans (Memory.read_write_self a b h)
    | succ k =>
      have := ih (a := a + 1) (by omega) hw k
      rw [show a + 1 + k = a + (k + 1) by omega] at this
      rw [this, List.getElem?_cons_succ, Memory.read_write_ne _ _ (by omega)]

end Sys2Proof.Machine
end

