-- ==== Sys2Proof/Laws/Fetch.lean ====
section
/-! SUPPORT. Fetch: everything it can answer, and what that says of memory and the pc. -/

namespace Sys2Proof.Machine

/-- Everything an operand fetch can do, at a pc the opcode was fetched from. -/
theorem fetchOperands_cases {s : State} (o : Opcode) (hpc : s.pc.toNat < 256) :
    (∃ i, fetchOperands s o.format = .instr i ∧ i.opcode = o ∧ s.pc.toNat + i.length ≤ 256 ∧
        ∀ k (hk : k < i.operands.length), s.mem.read (s.pc.toNat + 1 + k) = i.operands[k]) ∨
      (fetchOperands s o.format = .fault (.addressOutOfRange 256) ∧ 256 < s.pc.toNat + 1 + o.format.nops) := by
  have two (mk : Byte → Byte → Instr) :
      (s.pc.toNat + 3 ≤ 256 ∧ fetchOperands.fetchTwo s mk =
          .instr (mk (s.mem.read (s.pc.toNat + 1)) (s.mem.read (s.pc.toNat + 2)))) ∨
        (fetchOperands.fetchTwo s mk = .fault (.addressOutOfRange 256) ∧ 256 < s.pc.toNat + 1 + 2) := by
    unfold fetchOperands.fetchTwo
    by_cases h1 : s.pc.toNat + 1 < 256
    · by_cases h2 : s.pc.toNat + 2 < 256
      · exact .inl ⟨h2, by simp [h1, h2]⟩
      · have : s.pc.toNat = 254 := by omega
        exact .inr ⟨by simp [this], by omega⟩
    · have : s.pc.toNat = 255 := by omega
      exact .inr ⟨by simp [this], by omega⟩
  have one (mk : Byte → Instr) :
      (s.pc.toNat + 2 ≤ 256 ∧ fetchOperands s (.op1r mk) = .instr (mk (s.mem.read (s.pc.toNat + 1)))) ∨
        (fetchOperands s (.op1r mk) = .fault (.addressOutOfRange 256) ∧ 256 < s.pc.toNat + 1 + 1) := by
    simp only [fetchOperands]
    by_cases h1 : s.pc.toNat + 1 < 256
    · exact .inl ⟨h1, by simp [h1]⟩
    · have : s.pc.toNat = 255 := by omega
      exact .inr ⟨by simp [this], by omega⟩
  cases o
  case hlt | ret => exact .inl ⟨_, rfl, rfl, hpc, by simp [Instr.operands]⟩
  case prn | push | pop | call | jmp | jeq | jne | not =>
    rcases one _ with ⟨h, e⟩ | h
    · refine .inl ⟨_, e, rfl, h, ?_⟩
      simp only [Instr.operands, List.length_cons, List.length_nil]
      intro k hk
      obtain rfl : k = 0 := by omega
      rfl
    · exact .inr h
  all_goals
    rcases two _ with ⟨h, e⟩ | h
    · refine .inl ⟨_, e, rfl, h, ?_⟩
      simp only [Instr.operands, List.length_cons, List.length_nil]
      intro k hk
      obtain rfl | rfl : k = 0 ∨ k = 1 := by omega
      · rfl
      · rfl
    · exact .inr h

/-- Everything a fetch can do. -/
theorem fetch_cases (s : State) :
    (∃ i, fetch s = .instr i ∧ s.pc.toNat + i.length ≤ 256 ∧ lookup (s.mem.read s.pc.toNat) = some i.opcode ∧
        ∀ k (hk : k < i.operands.length), s.mem.read (s.pc.toNat + 1 + k) = i.operands[k]) ∨
      (fetch s = .unknown (s.mem.read s.pc.toNat) ∧ s.pc.toNat < 256 ∧ lookup (s.mem.read s.pc.toNat) = none) ∨
      (∃ o, fetch s = .fault (.addressOutOfRange 256) ∧ s.pc.toNat < 256 ∧
        lookup (s.mem.read s.pc.toNat) = some o ∧ 256 < s.pc.toNat + 1 + o.format.nops) ∨
      (fetch s = .fault (.addressOutOfRange s.pc.toNat) ∧ 256 ≤ s.pc.toNat) := by
  unfold fetch
  by_cases hpc : s.pc.toNat < 256
  · simp only [Memory.read?_of_lt _ hpc]
    cases hl : lookup (s.mem.read s.pc.toNat) with
    | none => exact .inr (.inl ⟨rfl, hpc, rfl⟩)
    | some o =>
      rcases fetchOperands_cases o hpc with ⟨i, h, ho, hlen, hops⟩ | ⟨h, hlen⟩
      · exact .inl ⟨i, h, hlen, by rw [ho], hops⟩
      · exact .inr (.inr (.inl ⟨o, h, hpc, rfl, hlen⟩))
  · simp only [Memory.read?_of_ge s.mem (Nat.le_of_not_lt hpc)]
    exact .inr (.inr (.inr ⟨trivial, by omega⟩))

end Sys2Proof.Machine
end

