-- ==== Sys2Proof/Laws/State.lean ====
section
/-! SUPPORT. The state record: what each update does to each field, and the register file's read-after-write laws. -/

namespace Sys2Proof.Machine

/-! ## `State.setReg` -/

@[simp] theorem State.setReg_regs (s : State) (r : RegIdx) (v : Byte) : (s.setReg r v).regs = s.regs.set r.val v r.isLt := rfl
@[simp] theorem State.setReg_pc (s : State) (r : RegIdx) (v : Byte) : (s.setReg r v).pc = s.pc := rfl
@[simp] theorem State.setReg_fl (s : State) (r : RegIdx) (v : Byte) : (s.setReg r v).fl = s.fl := rfl
@[simp] theorem State.setReg_mem (s : State) (r : RegIdx) (v : Byte) : (s.setReg r v).mem = s.mem := rfl
@[simp] theorem State.setReg_rs (s : State) (r : RegIdx) (v : Byte) : (s.setReg r v).rs = s.rs := rfl
@[simp] theorem State.setReg_out (s : State) (r : RegIdx) (v : Byte) : (s.setReg r v).out = s.out := rfl

/-! ## `State.decSp` -/

@[simp] theorem State.decSp_regs (s : State) : s.decSp.regs = s.regs.set Config.spIndex.val (s.sp - 1) Config.spIndex.isLt := rfl
@[simp] theorem State.decSp_pc (s : State) : s.decSp.pc = s.pc := rfl
@[simp] theorem State.decSp_fl (s : State) : s.decSp.fl = s.fl := rfl
@[simp] theorem State.decSp_mem (s : State) : s.decSp.mem = s.mem := rfl
@[simp] theorem State.decSp_rs (s : State) : s.decSp.rs = s.rs := rfl
@[simp] theorem State.decSp_out (s : State) : s.decSp.out = s.out := rfl

/-! ## `State.incSp` -/

@[simp] theorem State.incSp_regs (s : State) : s.incSp.regs = s.regs.set Config.spIndex.val (s.sp + 1) Config.spIndex.isLt := rfl
@[simp] theorem State.incSp_pc (s : State) : s.incSp.pc = s.pc := rfl
@[simp] theorem State.incSp_fl (s : State) : s.incSp.fl = s.fl := rfl
@[simp] theorem State.incSp_mem (s : State) : s.incSp.mem = s.mem := rfl
@[simp] theorem State.incSp_rs (s : State) : s.incSp.rs = s.rs := rfl
@[simp] theorem State.incSp_out (s : State) : s.incSp.out = s.out := rfl

/-! ## `State.advance` -/

@[simp] theorem State.advance_regs (s : State) (n : Nat) : (s.advance n).regs = s.regs := rfl
@[simp] theorem State.advance_pc (s : State) (n : Nat) : (s.advance n).pc = s.pc + BitVec.ofNat 9 n := rfl
@[simp] theorem State.advance_fl (s : State) (n : Nat) : (s.advance n).fl = s.fl := rfl
@[simp] theorem State.advance_mem (s : State) (n : Nat) : (s.advance n).mem = s.mem := rfl
@[simp] theorem State.advance_rs (s : State) (n : Nat) : (s.advance n).rs = s.rs := rfl
@[simp] theorem State.advance_out (s : State) (n : Nat) : (s.advance n).out = s.out := rfl
@[simp] theorem State.advance_reg (s : State) (n : Nat) (q : RegIdx) : (s.advance n).reg q = s.reg q := rfl
@[simp] theorem State.advance_sp (s : State) (n : Nat) : (s.advance n).sp = s.sp := rfl

/-! ## `State.jump` -/

@[simp] theorem State.jump_regs (s : State) (v : Byte) : (s.jump v).regs = s.regs := rfl
@[simp] theorem State.jump_pc (s : State) (v : Byte) : (s.jump v).pc = v.setWidth 9 := rfl
@[simp] theorem State.jump_fl (s : State) (v : Byte) : (s.jump v).fl = s.fl := rfl
@[simp] theorem State.jump_mem (s : State) (v : Byte) : (s.jump v).mem = s.mem := rfl
@[simp] theorem State.jump_rs (s : State) (v : Byte) : (s.jump v).rs = s.rs := rfl
@[simp] theorem State.jump_out (s : State) (v : Byte) : (s.jump v).out = s.out := rfl
@[simp] theorem State.jump_reg (s : State) (v : Byte) (q : RegIdx) : (s.jump v).reg q = s.reg q := rfl
@[simp] theorem State.jump_sp (s : State) (v : Byte) : (s.jump v).sp = s.sp := rfl

/-! ## `State.setFlags` -/

@[simp] theorem State.setFlags_regs (s : State) (f : Flags) : (s.setFlags f).regs = s.regs := rfl
@[simp] theorem State.setFlags_pc (s : State) (f : Flags) : (s.setFlags f).pc = s.pc := rfl
@[simp] theorem State.setFlags_fl (s : State) (f : Flags) : (s.setFlags f).fl = f := rfl
@[simp] theorem State.setFlags_mem (s : State) (f : Flags) : (s.setFlags f).mem = s.mem := rfl
@[simp] theorem State.setFlags_rs (s : State) (f : Flags) : (s.setFlags f).rs = s.rs := rfl
@[simp] theorem State.setFlags_out (s : State) (f : Flags) : (s.setFlags f).out = s.out := rfl
@[simp] theorem State.setFlags_reg (s : State) (f : Flags) (q : RegIdx) : (s.setFlags f).reg q = s.reg q := rfl
@[simp] theorem State.setFlags_sp (s : State) (f : Flags) : (s.setFlags f).sp = s.sp := rfl

/-! ## `State.emit` -/

@[simp] theorem State.emit_regs (s : State) (v : Byte) : (s.emit v).regs = s.regs := rfl
@[simp] theorem State.emit_pc (s : State) (v : Byte) : (s.emit v).pc = s.pc := rfl
@[simp] theorem State.emit_fl (s : State) (v : Byte) : (s.emit v).fl = s.fl := rfl
@[simp] theorem State.emit_mem (s : State) (v : Byte) : (s.emit v).mem = s.mem := rfl
@[simp] theorem State.emit_rs (s : State) (v : Byte) : (s.emit v).rs = s.rs := rfl
@[simp] theorem State.emit_out (s : State) (v : Byte) : (s.emit v).out = s.out ++ [v] := rfl
@[simp] theorem State.emit_reg (s : State) (v : Byte) (q : RegIdx) : (s.emit v).reg q = s.reg q := rfl
@[simp] theorem State.emit_sp (s : State) (v : Byte) : (s.emit v).sp = s.sp := rfl

/-! ## `State.setMem` -/

@[simp] theorem State.setMem_regs (s : State) (m : Memory) : (s.setMem m).regs = s.regs := rfl
@[simp] theorem State.setMem_pc (s : State) (m : Memory) : (s.setMem m).pc = s.pc := rfl
@[simp] theorem State.setMem_fl (s : State) (m : Memory) : (s.setMem m).fl = s.fl := rfl
@[simp] theorem State.setMem_mem (s : State) (m : Memory) : (s.setMem m).mem = m := rfl
@[simp] theorem State.setMem_rs (s : State) (m : Memory) : (s.setMem m).rs = s.rs := rfl
@[simp] theorem State.setMem_out (s : State) (m : Memory) : (s.setMem m).out = s.out := rfl
@[simp] theorem State.setMem_reg (s : State) (m : Memory) (q : RegIdx) : (s.setMem m).reg q = s.reg q := rfl
@[simp] theorem State.setMem_sp (s : State) (m : Memory) : (s.setMem m).sp = s.sp := rfl

/-! ## `State.halt` -/

@[simp] theorem State.halt_regs (s : State) (c : HaltCause) : (s.halt c).regs = s.regs := rfl
@[simp] theorem State.halt_pc (s : State) (c : HaltCause) : (s.halt c).pc = s.pc := rfl
@[simp] theorem State.halt_fl (s : State) (c : HaltCause) : (s.halt c).fl = s.fl := rfl
@[simp] theorem State.halt_mem (s : State) (c : HaltCause) : (s.halt c).mem = s.mem := rfl
@[simp] theorem State.halt_rs (s : State) (c : HaltCause) : (s.halt c).rs = .halted c := rfl
@[simp] theorem State.halt_out (s : State) (c : HaltCause) : (s.halt c).out = s.out := rfl
@[simp] theorem State.halt_reg (s : State) (c : HaltCause) (q : RegIdx) : (s.halt c).reg q = s.reg q := rfl
@[simp] theorem State.halt_sp (s : State) (c : HaltCause) : (s.halt c).sp = s.sp := rfl

/-! ## `State.raise` -/

@[simp] theorem State.raise_regs (s : State) (f : EngineFault) : (s.raise f).regs = s.regs := rfl
@[simp] theorem State.raise_pc (s : State) (f : EngineFault) : (s.raise f).pc = s.pc := rfl
@[simp] theorem State.raise_fl (s : State) (f : EngineFault) : (s.raise f).fl = s.fl := rfl
@[simp] theorem State.raise_mem (s : State) (f : EngineFault) : (s.raise f).mem = s.mem := rfl
@[simp] theorem State.raise_rs (s : State) (f : EngineFault) : (s.raise f).rs = .faulted f := rfl
@[simp] theorem State.raise_out (s : State) (f : EngineFault) : (s.raise f).out = s.out := rfl
@[simp] theorem State.raise_reg (s : State) (f : EngineFault) (q : RegIdx) : (s.raise f).reg q = s.reg q := rfl
@[simp] theorem State.raise_sp (s : State) (f : EngineFault) : (s.raise f).sp = s.sp := rfl

/-! ## The register file -/

/-- A register reads as what was last written to it; the others keep their values. -/
theorem State.setReg_reg (s : State) (r q : RegIdx) (v : Byte) :
    (s.setReg r v).reg q = if q = r then v else s.reg q := by
  simp only [State.reg, State.setReg, Fin.getElem_fin, Vector.getElem_set, Fin.ext_iff, eq_comm]

@[simp] theorem State.setReg_reg_self (s : State) (r : RegIdx) (v : Byte) : (s.setReg r v).reg r = v := by
  simp [State.setReg_reg]

theorem State.setReg_reg_ne (s : State) {r q : RegIdx} (v : Byte) (h : q ≠ r) :
    (s.setReg r v).reg q = s.reg q := by
  simp [State.setReg_reg, h]

theorem State.decSp_reg (s : State) (q : RegIdx) :
    s.decSp.reg q = if q = Config.spIndex then s.sp - 1 else s.reg q :=
  State.setReg_reg s Config.spIndex q _

theorem State.incSp_reg (s : State) (q : RegIdx) :
    s.incSp.reg q = if q = Config.spIndex then s.sp + 1 else s.reg q :=
  State.setReg_reg s Config.spIndex q _

@[simp] theorem State.decSp_sp (s : State) : s.decSp.sp = s.sp - 1 := State.setReg_reg_self s _ _

@[simp] theorem State.incSp_sp (s : State) : s.incSp.sp = s.sp + 1 := State.setReg_reg_self s _ _

theorem State.setReg_sp (s : State) (r : RegIdx) (v : Byte) :
    (s.setReg r v).sp = if Config.spIndex = r then v else s.sp :=
  State.setReg_reg s r Config.spIndex v

/-- Two states that agree on every register have the same register file. -/
theorem State.regs_ext {s t : State} (h : ∀ r : RegIdx, s.reg r = t.reg r) : s.regs = t.regs :=
  Vector.ext fun i hi => h ⟨i, hi⟩

end Sys2Proof.Machine
end

