-- ==== Sys2Proof/Laws/Ops.lean ====
section
/-! SUPPORT. The shared operations: what each can do, said once. -/

namespace Sys2Proof.Machine

/-! ## Register operands -/

theorem regIdx?_of_lt {b : Byte} (h : b.toNat < 8) : regIdx? b = some ⟨b.toNat, h⟩ := by
  simp [regIdx?, h]

theorem regIdx?_of_ge {b : Byte} (h : 7 < b.toNat) : regIdx? b = none := by
  simp [regIdx?]; omega

/-- With a register operand that names a register, the instruction goes on with it. -/
@[simp] theorem withReg_of_lt {b : Byte} (h : b.toNat < 8) (s : State) (k : RegIdx → Result) :
    withReg b s k = k ⟨b.toNat, h⟩ := by
  simp [withReg, regIdx?_of_lt h]

/-- A register operand above 7 raises InvalidRegister and changes nothing else. -/
@[simp] theorem withReg_of_ge {b : Byte} (h : 7 < b.toNat) (s : State) (k : RegIdx → Result) :
    withReg b s k = .next (s.raise (.invalidRegister b)) := by
  simp [withReg, regIdx?_of_ge h]

/-- Everything a register check can do. -/
theorem withReg_cases {b : Byte} {s t : State} {k : RegIdx → Result} (h : withReg b s k = .next t) :
    (∃ hb : b.toNat < 8, k ⟨b.toNat, hb⟩ = .next t) ∨
      (7 < b.toNat ∧ t = s.raise (.invalidRegister b)) := by
  by_cases hb : b.toNat < 8
  · exact .inl ⟨hb, by rwa [withReg_of_lt hb] at h⟩
  · have hb' : 7 < b.toNat := by omega
    rw [withReg_of_ge hb'] at h
    exact .inr ⟨hb', by injection h with h; exact h.symm⟩

/-- The operand byte that names the stack pointer is 7. -/
theorem operand_eq_sp {a : Byte} (ha : a.toNat < 8) : (⟨a.toNat, ha⟩ : RegIdx) = Config.spIndex ↔ a = 7 := by
  constructor
  · intro h; have hv : a.toNat = 7 := congrArg Fin.val h; exact BitVec.eq_of_toNat_eq hv
  · rintro rfl; rfl

/-! ## Memory accesses -/

/-- A read at a byte address never faults. -/
@[simp] theorem withRead_byte (a : Byte) (s : State) (k : Byte → Result) :
    withRead a.toNat s k = k (s.mem.read a.toNat) := by
  simp [withRead, byte_lt a]

/-- A write at a byte address never faults. -/
@[simp] theorem withWrite_byte (a v : Byte) (start t : State) (k : State → Result) :
    withWrite a.toNat v start t k = k (t.setMem (t.mem.write a.toNat v)) := by
  simp [withWrite, byte_lt a]

/-! ## The ALU -/

/-- Everything an ALU operation can do. -/
theorem applyAlu_cases {op : AluOp} {ra rb : RegIdx} {opb : Byte} {len : Nat} {s t : State}
    (h : applyAlu op ra rb opb len s = .next t) :
    (∃ v, alu op (s.reg ra) (s.reg rb) = .write v ∧ t = (s.setReg ra v).advance len) ∨
      (op = .cmp ∧ t = (s.setFlags (compareFlags (s.reg ra) (s.reg rb))).advance len) ∨
      (op = .mod ∧ s.reg rb = 0 ∧ t = s.raise (.divisionByZero opb)) := by
  have next_inj {u : State} (h : (Host.Outcome.next u : Result) = .next t) : t = u := by injection h with h; exact h.symm
  cases op
  case cmp => exact .inr (.inl ⟨rfl, next_inj h⟩)
  case mod =>
    simp only [applyAlu, alu] at h
    by_cases h0 : s.reg rb = 0
    · rw [if_pos h0] at h; exact .inr (.inr ⟨rfl, h0, next_inj h⟩)
    · rw [if_neg h0] at h; exact .inl ⟨_, if_neg h0, next_inj h⟩
  all_goals exact .inl ⟨_, rfl, next_inj h⟩

/-- With both operands naming registers, an OP2RR ALU instruction applies its operation. -/
theorem aluBinary_of_lt (op : AluOp) {a b : Byte} (ha : a.toNat < 8) (hb : b.toNat < 8) (s : State) :
    aluBinary op a b s = applyAlu op ⟨a.toNat, ha⟩ ⟨b.toNat, hb⟩ b 3 s := by
  simp [aluBinary, withRegs, ha, hb]

/-- The first operand is checked first. -/
theorem aluBinary_of_ge_left (op : AluOp) {a : Byte} (b : Byte) (ha : 7 < a.toNat) (s : State) :
    aluBinary op a b s = .next (s.raise (.invalidRegister a)) := by
  simp [aluBinary, withRegs, ha]

/-- Then the second. -/
theorem aluBinary_of_ge_right (op : AluOp) {a b : Byte} (ha : a.toNat < 8) (hb : 7 < b.toNat) (s : State) :
    aluBinary op a b s = .next (s.raise (.invalidRegister b)) := by
  simp [aluBinary, withRegs, ha, hb]

/-- Everything an OP2RR ALU instruction can do. -/
theorem aluBinary_cases {op : AluOp} {a b : Byte} {s t : State} (h : aluBinary op a b s = .next t) :
    (∃ (ha : a.toNat < 8) (hb : b.toNat < 8),
        applyAlu op ⟨a.toNat, ha⟩ ⟨b.toNat, hb⟩ b 3 s = .next t) ∨
      (7 < a.toNat ∧ t = s.raise (.invalidRegister a)) ∨
      (a.toNat < 8 ∧ 7 < b.toNat ∧ t = s.raise (.invalidRegister b)) := by
  rcases withReg_cases h with ⟨ha, h⟩ | ⟨ha, rfl⟩
  · rcases withReg_cases h with ⟨hb, h⟩ | ⟨hb, rfl⟩
    · exact .inl ⟨ha, hb, h⟩
    · exact .inr (.inr ⟨ha, hb, rfl⟩)
  · exact .inr (.inl ⟨ha, rfl⟩)

/-! ## Flags -/

/-- CMP sets exactly one flag. -/
theorem compareFlags_cases (x y : Byte) :
    (x.toNat < y.toNat ∧ compareFlags x y = ⟨true, false, false⟩) ∨
      (y.toNat < x.toNat ∧ compareFlags x y = ⟨false, true, false⟩) ∨
      (x = y ∧ compareFlags x y = ⟨false, false, true⟩) := by
  unfold compareFlags
  rcases Nat.lt_trichotomy x.toNat y.toNat with h | h | h
  · exact .inl ⟨h, by simp [h]⟩
  · exact .inr (.inr ⟨BitVec.eq_of_toNat_eq h, by simp [h]⟩)
  · exact .inr (.inl ⟨h, by simp [h, Nat.lt_asymm h]⟩)

theorem compareFlags_reachable (x y : Byte) : compareFlags x y ∈ Flags.reachable := by
  rcases compareFlags_cases x y with ⟨-, h⟩ | ⟨-, h⟩ | ⟨-, h⟩ <;> simp [h, Flags.reachable]

/-! ## Jumps -/

/-- Everything a jump to a register can do. -/
theorem jumpTo_cases {a : Byte} {s t : State} (h : jumpTo a s = .next t) :
    (∃ ha : a.toNat < 8, t = s.jump (s.reg ⟨a.toNat, ha⟩)) ∨
      (7 < a.toNat ∧ t = s.raise (.invalidRegister a)) := by
  rcases withReg_cases h with ⟨ha, h⟩ | h
  · exact .inl ⟨ha, by injection h with h; exact h.symm⟩
  · exact .inr h

end Sys2Proof.Machine
end

