-- ==== Sys2Proof/Laws/Step.lean ====
section
/-! SUPPORT. The execute phase and the cycle: the inversion lemmas the provers cite. -/

namespace Sys2Proof.Machine

/-- A next state is one state. -/
theorem next_inj {t u : State} (h : (Host.Outcome.next u : Result) = .next t) : t = u := by
  injection h with h; exact h.symm

/-- Everything one cycle can do. -/
theorem step_cases {s t : State} (h : step s = .next t) :
    (s.rs ≠ .running ∧ t = s) ∨
      (s.rs = .running ∧ ∃ i, fetch s = .instr i ∧ exec i s = .next t) ∨
      (s.rs = .running ∧ ∃ b, fetch s = .unknown b ∧ t = s.halt (.unknownOpcode b)) ∨
      (s.rs = .running ∧ ∃ f, fetch s = .fault f ∧ t = s.raise f) := by
  unfold step at h
  cases hr : s.rs with
  | running =>
    simp only [hr] at h
    cases hf : fetch s with
    | instr i => simp only [hf] at h; exact .inr (.inl ⟨rfl, i, rfl, h⟩)
    | unknown b => simp only [hf] at h; exact .inr (.inr (.inl ⟨rfl, b, rfl, next_inj h⟩))
    | fault f => simp only [hf] at h; exact .inr (.inr (.inr ⟨rfl, f, rfl, next_inj h⟩))
  | halted c => simp only [hr] at h; exact .inl ⟨by simp, next_inj h⟩
  | faulted f => simp only [hr] at h; exact .inl ⟨by simp, next_inj h⟩

theorem step_of_instr {s : State} {i : Instr} (hr : s.rs = .running) (hf : fetch s = .instr i) :
    step s = exec i s := by
  simp [step, hr, hf]

theorem step_of_unknown {s : State} {b : Byte} (hr : s.rs = .running) (hf : fetch s = .unknown b) :
    step s = .next (s.halt (.unknownOpcode b)) := by
  simp [step, hr, hf]

theorem step_of_fault {s : State} {f : EngineFault} (hr : s.rs = .running) (hf : fetch s = .fault f) :
    step s = .next (s.raise f) := by
  simp [step, hr, hf]

/-- Everything PUSH can do. -/
theorem execPush_cases {a : Byte} {s t : State} (h : execPush a s = .next t) :
    (∃ ha : a.toNat < 8,
        t = (s.decSp.setMem (s.mem.write (s.sp - 1).toNat (s.decSp.reg ⟨a.toNat, ha⟩))).advance 2) ∨
      (7 < a.toNat ∧ t = s.raise (.invalidRegister a)) := by
  rcases withReg_cases h with ⟨ha, h⟩ | h
  · rw [withWrite_byte, State.decSp_sp, State.decSp_mem] at h; exact .inl ⟨ha, next_inj h⟩
  · exact .inr h

/-- Everything POP can do. -/
theorem execPop_cases {a : Byte} {s t : State} (h : execPop a s = .next t) :
    (∃ ha : a.toNat < 8, t = (s.setReg ⟨a.toNat, ha⟩ (s.mem.read s.sp.toNat)).incSp.advance 2) ∨
      (7 < a.toNat ∧ t = s.raise (.invalidRegister a)) := by
  rcases withReg_cases h with ⟨ha, h⟩ | h
  · rw [withRead_byte] at h; exact .inl ⟨ha, next_inj h⟩
  · exact .inr h

/-- Everything CALL can do. -/
theorem execCall_cases {a : Byte} {s t : State} (h : execCall a s = .next t) :
    (∃ ha : a.toNat < 8, s.pc.toNat + 2 ≤ 255 ∧
        t = (s.decSp.setMem (s.mem.write (s.sp - 1).toNat (BitVec.ofNat 8 (s.pc.toNat + 2)))).jump
          (s.decSp.reg ⟨a.toNat, ha⟩)) ∨
      (a.toNat < 8 ∧ 255 < s.pc.toNat + 2 ∧ t = s.raise (.addressOutOfRange (s.pc.toNat + 2))) ∨
      (7 < a.toNat ∧ t = s.raise (.invalidRegister a)) := by
  rcases withReg_cases h with ⟨ha, h⟩ | h
  · by_cases hp : 255 < s.pc.toNat + 2
    · rw [if_pos hp] at h; exact .inr (.inl ⟨ha, hp, next_inj h⟩)
    · rw [if_neg hp] at h; rw [withWrite_byte, State.decSp_sp, State.decSp_mem] at h; exact .inl ⟨ha, by omega, next_inj h⟩
  · exact .inr (.inr h)

/-- Everything RET can do: it always completes. -/
theorem execRet_eq (s : State) : execRet s = .next (s.incSp.jump (s.mem.read s.sp.toNat)) := by
  simp [execRet]

end Sys2Proof.Machine
end

