-- ==== Sys2Proof/Laws/Exec.lean ====
section
/-! SUPPORT. The execute phase inverted once for all instructions: an instruction either raises a fault, for a stated reason
and changing the run state alone, or completes with a stated next state. -/

namespace Sys2Proof.Machine

/-- Why an instruction raises `f` in `s`. -/
def Raises (i : Instr) (s : State) (f : EngineFault) : Prop :=
  (∃ idx, s.firstBadRegister i = some idx ∧ f = .invalidRegister idx) ∨
  (s.firstBadRegister i = none ∧
    ((∃ (a b : Byte) (hb : b.toNat < 8), i = .mod a b ∧ a.toNat < 8 ∧ s.reg ⟨b.toNat, hb⟩ = 0 ∧ f = .divisionByZero b) ∨
      (∃ a, i = .call a ∧ a.toNat < 8 ∧ 255 < s.pc.toNat + 2 ∧ f = .addressOutOfRange (s.pc.toNat + 2))))

/-- The next state of a completed OP2RR ALU instruction that writes a register. -/
def CompletesAlu (f : Byte → Byte → Byte) (a b : Byte) (s t : State) : Prop :=
  ∃ (ha : a.toNat < 8) (hb : b.toNat < 8),
    t = (s.setReg ⟨a.toNat, ha⟩ (f (s.reg ⟨a.toNat, ha⟩) (s.reg ⟨b.toNat, hb⟩))).advance 3

/-- The next state of a taken jump to a register. -/
def CompletesJump (a : Byte) (s t : State) : Prop :=
  ∃ ha : a.toNat < 8, t = s.jump (s.reg ⟨a.toNat, ha⟩)

/-- The next state of an instruction that completes. -/
def Completes (i : Instr) (s t : State) : Prop :=
  match i with
  | .hlt => t = (s.halt .hlt).advance 1
  | .ldi a imm => ∃ ha : a.toNat < 8, t = (s.setReg ⟨a.toNat, ha⟩ imm).advance 3
  | .prn a => ∃ ha : a.toNat < 8, t = (s.emit (s.reg ⟨a.toNat, ha⟩)).advance 2
  | .add a b => CompletesAlu aluAdd a b s t
  | .mul a b => CompletesAlu aluMul a b s t
  | .cmp a b => ∃ (ha : a.toNat < 8) (hb : b.toNat < 8),
      t = (s.setFlags (compareFlags (s.reg ⟨a.toNat, ha⟩) (s.reg ⟨b.toNat, hb⟩))).advance 3
  | .push a => ∃ ha : a.toNat < 8,
      t = (s.decSp.setMem (s.mem.write (s.sp - 1).toNat (s.decSp.reg ⟨a.toNat, ha⟩))).advance 2
  | .pop a => ∃ ha : a.toNat < 8, t = (s.setReg ⟨a.toNat, ha⟩ (s.mem.read s.sp.toNat)).incSp.advance 2
  | .call a => ∃ ha : a.toNat < 8, s.pc.toNat + 2 ≤ 255 ∧
      t = (s.decSp.setMem (s.mem.write (s.sp - 1).toNat (BitVec.ofNat 8 (s.pc.toNat + 2)))).jump
        (s.decSp.reg ⟨a.toNat, ha⟩)
  | .ret => t = s.incSp.jump (s.mem.read s.sp.toNat)
  | .jmp a => CompletesJump a s t
  | .jeq a => (s.fl.equal = true ∧ CompletesJump a s t) ∨ (s.fl.equal = false ∧ t = s.advance 2)
  | .jne a => (s.fl.equal = false ∧ CompletesJump a s t) ∨ (s.fl.equal = true ∧ t = s.advance 2)
  | .and a b => CompletesAlu aluAnd a b s t
  | .or a b => CompletesAlu aluOr a b s t
  | .xor a b => CompletesAlu aluXor a b s t
  | .not a => ∃ ha : a.toNat < 8, t = (s.setReg ⟨a.toNat, ha⟩ (aluNot (s.reg ⟨a.toNat, ha⟩))).advance 2
  | .shl a b => CompletesAlu aluShl a b s t
  | .shr a b => CompletesAlu aluShr a b s t
  | .mod a b => CompletesAlu aluMod a b s t ∧ ∀ hb : b.toNat < 8, s.reg ⟨b.toNat, hb⟩ ≠ 0

/-- The first bad register of one operand. -/
theorem find_bad_one {a : Byte} (h : 7 < a.toNat) :
    List.find? (fun b : Byte => decide (7 < b.toNat)) [a] = some a := by
  simp [h]

theorem find_bad_left {a b : Byte} (h : 7 < a.toNat) :
    List.find? (fun b : Byte => decide (7 < b.toNat)) [a, b] = some a := by
  simp [h]

theorem find_bad_right {a b : Byte} (ha : a.toNat < 8) (h : 7 < b.toNat) :
    List.find? (fun b : Byte => decide (7 < b.toNat)) [a, b] = some b := by
  rw [List.find?_cons_of_neg (by simp; omega)]; exact find_bad_one h

theorem find_bad_none_one {a : Byte} (h : a.toNat < 8) :
    List.find? (fun b : Byte => decide (7 < b.toNat)) [a] = none := by
  simp; omega

theorem find_bad_none_two {a b : Byte} (ha : a.toNat < 8) (hb : b.toNat < 8) :
    List.find? (fun b : Byte => decide (7 < b.toNat)) [a, b] = none := by
  simp; omega

/-- An OP2RR ALU instruction whose operation always writes. -/
theorem aluBinary_write {op : AluOp} {f : Byte → Byte → Byte} (hop : ∀ x y, alu op x y = .write (f x y)) {a b : Byte}
    {s t : State} (h : aluBinary op a b s = .next t) :
    CompletesAlu f a b s t ∨
      ∃ idx, List.find? (fun b : Byte => decide (7 < b.toNat)) [a, b] = some idx ∧ t = s.raise (.invalidRegister idx) := by
  rcases aluBinary_cases h with ⟨ha, hb, h⟩ | ⟨ha, rfl⟩ | ⟨ha, hb, rfl⟩
  · simp only [applyAlu, hop] at h
    exact .inl ⟨ha, hb, next_inj h⟩
  · exact .inr ⟨a, find_bad_left ha, rfl⟩
  · exact .inr ⟨b, find_bad_right ha hb, rfl⟩

/-- EVERYTHING AN INSTRUCTION CAN DO: raise a fault for a reason, changing the run state alone, or complete. -/
theorem exec_cases {i : Instr} {s t : State} (h : exec i s = .next t) :
    (∃ f, Raises i s f ∧ t = s.raise f) ∨ (s.firstBadRegister i = none ∧ Completes i s t) := by
  have bad {idx : Byte} (hi : s.firstBadRegister i = some idx) (ht : t = s.raise (.invalidRegister idx)) :
      (∃ f, Raises i s f ∧ t = s.raise f) ∨ (s.firstBadRegister i = none ∧ Completes i s t) :=
    .inl ⟨_, .inl ⟨idx, hi, rfl⟩, ht⟩
  cases i
  case hlt => exact .inr ⟨rfl, next_inj h⟩
  case ret => exact .inr ⟨rfl, next_inj ((execRet_eq s).symm.trans h)⟩
  case ldi a imm =>
    rcases withReg_cases h with ⟨ha, h⟩ | ⟨ha, h⟩
    · exact .inr ⟨find_bad_none_one ha, ha, next_inj h⟩
    · exact bad (find_bad_one ha) h
  case prn a =>
    rcases withReg_cases h with ⟨ha, h⟩ | ⟨ha, h⟩
    · exact .inr ⟨find_bad_none_one ha, ha, next_inj h⟩
    · exact bad (find_bad_one ha) h
  case not a =>
    rcases withReg_cases h with ⟨ha, h⟩ | ⟨ha, h⟩
    · exact .inr ⟨find_bad_none_one ha, ha, next_inj h⟩
    · exact bad (find_bad_one ha) h
  case push a =>
    rcases execPush_cases h with ⟨ha, h⟩ | ⟨ha, h⟩
    · exact .inr ⟨find_bad_none_one ha, ha, h⟩
    · exact bad (find_bad_one ha) h
  case pop a =>
    rcases execPop_cases h with ⟨ha, h⟩ | ⟨ha, h⟩
    · exact .inr ⟨find_bad_none_one ha, ha, h⟩
    · exact bad (find_bad_one ha) h
  case call a =>
    rcases execCall_cases h with ⟨ha, hp, h⟩ | ⟨ha, hp, h⟩ | ⟨ha, h⟩
    · exact .inr ⟨find_bad_none_one ha, ha, hp, h⟩
    · exact .inl ⟨_, .inr ⟨find_bad_none_one ha, .inr ⟨a, rfl, ha, hp, rfl⟩⟩, h⟩
    · exact bad (find_bad_one ha) h
  case jmp a =>
    rcases jumpTo_cases h with ⟨ha, h⟩ | ⟨ha, h⟩
    · exact .inr ⟨find_bad_none_one ha, ha, h⟩
    · exact bad (find_bad_one ha) h
  case jeq a =>
    simp only [exec, execJeq, Flags.isEqual] at h
    cases he : s.fl.equal
    · exact .inr ⟨by simp [State.firstBadRegister, State.registersUsed, he],
        .inr ⟨he, next_inj (by simpa [he] using h)⟩⟩
    · simp only [he, if_true] at h
      rcases jumpTo_cases h with ⟨ha, h⟩ | ⟨ha, h⟩
      · exact .inr ⟨by simpa [State.firstBadRegister, State.registersUsed, he] using Nat.le_of_lt_succ ha, .inl ⟨he, ha, h⟩⟩
      · exact bad (by simpa [State.firstBadRegister, State.registersUsed, he] using ha) h
  case jne a =>
    simp only [exec, execJne, Flags.isEqual] at h
    cases he : s.fl.equal
    · simp only [he, Bool.false_eq_true, if_false] at h
      rcases jumpTo_cases h with ⟨ha, h⟩ | ⟨ha, h⟩
      · exact .inr ⟨by simpa [State.firstBadRegister, State.registersUsed, he] using Nat.le_of_lt_succ ha, .inl ⟨he, ha, h⟩⟩
      · exact bad (by simpa [State.firstBadRegister, State.registersUsed, he] using ha) h
    · exact .inr ⟨by simp [State.firstBadRegister, State.registersUsed, he],
        .inr ⟨he, next_inj (by simpa [he] using h)⟩⟩
  case cmp a b =>
    rcases aluBinary_cases h with ⟨ha, hb, h⟩ | ⟨ha, h⟩ | ⟨ha, hb, h⟩
    · exact .inr ⟨find_bad_none_two ha hb, ha, hb, next_inj h⟩
    · exact bad (find_bad_left ha) h
    · exact bad (find_bad_right ha hb) h
  case mod a b =>
    rcases aluBinary_cases h with ⟨ha, hb, h⟩ | ⟨ha, h⟩ | ⟨ha, hb, h⟩
    · simp only [applyAlu, alu] at h
      by_cases h0 : s.reg ⟨b.toNat, hb⟩ = 0
      · rw [if_pos h0] at h
        exact .inl ⟨_, .inr ⟨find_bad_none_two ha hb, .inl ⟨a, b, hb, rfl, ha, h0, rfl⟩⟩, next_inj h⟩
      · rw [if_neg h0] at h
        exact .inr ⟨find_bad_none_two ha hb, ⟨ha, hb, next_inj h⟩, fun _ => h0⟩
    · exact bad (find_bad_left ha) h
    · exact bad (find_bad_right ha hb) h
  all_goals
    rcases aluBinary_write (fun _ _ => rfl) h with h | ⟨idx, hi, h⟩
    · exact .inr ⟨by obtain ⟨ha, hb, -⟩ := h; exact find_bad_none_two ha hb, h⟩
    · exact bad hi h

end Sys2Proof.Machine
end

