-- ==== Sys2Proof/Laws/Interface.lean ====
section
/-! SUPPORT. What the host's transactions can do. -/

namespace Sys2Proof.Machine

@[simp] theorem State.load_regs (s : State) (image : List Byte) : (s.load image).regs = s.regs := rfl
@[simp] theorem State.load_pc (s : State) (image : List Byte) : (s.load image).pc = s.pc := rfl
@[simp] theorem State.load_fl (s : State) (image : List Byte) : (s.load image).fl = s.fl := rfl
@[simp] theorem State.load_rs (s : State) (image : List Byte) : (s.load image).rs = s.rs := rfl
@[simp] theorem State.load_out (s : State) (image : List Byte) : (s.load image).out = s.out := rfl

/-- A load puts the image at address 0 on and 0 everywhere else, whatever was there. -/
theorem State.load_read (s : State) {image : List Byte} (h : image.length ≤ 256) (a : Nat) :
    (s.load image).mem.read a = (image[a]?).getD 0 := by
  have := Memory.read_writeBytes (m := []) (a := 0) image (by omega) rfl a
  rwa [Nat.zero_add] at this

/-- A load leaves the memory canonical. -/
theorem State.load_wf (s : State) {image : List Byte} (h : image.length ≤ 256) : (s.load image).mem.wf = true :=
  Memory.wf_writeBytes (m := []) (a := 0) image (by omega) rfl

/-- What a booted state is. -/
theorem boot_some {image : List Byte} {s : State} (h : boot image = some s) :
    image.length ≤ 256 ∧ s = State.reset.load image := by
  unfold boot at h
  split at h
  · exact ⟨‹_›, by injection h with h; exact h.symm⟩
  · cases h

/-- Everything a run of cycles of a session can do. -/
theorem Session.runFor_cases {n : Nat} {c d : Session} (h : c.runFor n = .next d) :
    Machine.runFor n c.engine = .next d.engine ∧ d.phase = if n = 0 then c.phase else .stepped := by
  unfold Session.runFor at h
  split at h
  · injection h with h
    subst h
    exact ⟨‹_›, rfl⟩
  · cases h
  · cases h

/-- Everything a transaction that is performed can do. -/
theorem perform_cases {tr : Transaction} {c d : Session} (h : perform tr c = some (.next d)) :
    (tr = .reset ∧ d = Session.reset) ∨
    (∃ image, tr = .load image ∧ image.length ≤ 256 ∧ c.phase = .beforeFirstStep ∧
      d = { c with engine := c.engine.load image }) ∨
    (∃ n, (tr = .step ∧ n = 1 ∨ tr = .runFor n) ∧ Machine.runFor n c.engine = .next d.engine ∧
      d.phase = if n = 0 then c.phase else .stepped) := by
  cases tr with
  | reset => exact .inl ⟨rfl, by injection h with h; injection h with h; exact h.symm⟩
  | load image =>
    simp only [perform] at h
    split at h
    · injection h with h
      injection h with h
      exact .inr (.inl ⟨image, rfl, ‹_ ∧ _›.1, ‹_ ∧ _›.2, h.symm⟩)
    · cases h
  | step =>
    injection h with h
    exact .inr (.inr ⟨1, .inl ⟨rfl, rfl⟩, Session.runFor_cases h⟩)
  | runFor n =>
    injection h with h
    exact .inr (.inr ⟨n, .inr rfl, Session.runFor_cases h⟩)

end Sys2Proof.Machine
end

