-- ==== Sys2Proof/Laws/PerInstr.lean ====
section
/-! SUPPORT. One statement per instruction: the length of its encoding is one more than its operand count, which its opcode's
two top bits give (spec/30_encoding.md R51). -/

namespace Sys2Proof.Laws.Length

/-- The encoding is an opcode byte whose bits 7:6 are the operand count, and that many operand bytes. -/
def Statement (i : Instr) : Prop :=
  (encode i).length = 1 + i.opcode.format.nops ∧
    i.opcode.format.nops = (opMap i.opcode).toNat / 64 ∧ (encode i).head? = some (opMap i.opcode)

/-- `nops(opcode) = opcode[7:6]` for each of the 20 opcodes. -/
theorem opcode_nops (o : Opcode) : o.format.nops = (opMap o).toNat / 64 := by
  cases o <;> decide

theorem hlt : Statement .hlt := And.intro rfl (And.intro (opcode_nops _) rfl)
theorem ldi (a imm : Byte) : Statement (.ldi a imm) := And.intro rfl (And.intro (opcode_nops _) rfl)
theorem prn (a : Byte) : Statement (.prn a) := And.intro rfl (And.intro (opcode_nops _) rfl)
theorem add (a b : Byte) : Statement (.add a b) := And.intro rfl (And.intro (opcode_nops _) rfl)
theorem mul (a b : Byte) : Statement (.mul a b) := And.intro rfl (And.intro (opcode_nops _) rfl)
theorem cmp (a b : Byte) : Statement (.cmp a b) := And.intro rfl (And.intro (opcode_nops _) rfl)
theorem push (a : Byte) : Statement (.push a) := And.intro rfl (And.intro (opcode_nops _) rfl)
theorem pop (a : Byte) : Statement (.pop a) := And.intro rfl (And.intro (opcode_nops _) rfl)
theorem call (a : Byte) : Statement (.call a) := And.intro rfl (And.intro (opcode_nops _) rfl)
theorem ret : Statement .ret := And.intro rfl (And.intro (opcode_nops _) rfl)
theorem jmp (a : Byte) : Statement (.jmp a) := And.intro rfl (And.intro (opcode_nops _) rfl)
theorem jeq (a : Byte) : Statement (.jeq a) := And.intro rfl (And.intro (opcode_nops _) rfl)
theorem jne (a : Byte) : Statement (.jne a) := And.intro rfl (And.intro (opcode_nops _) rfl)
theorem and (a b : Byte) : Statement (.and a b) := And.intro rfl (And.intro (opcode_nops _) rfl)
theorem or (a b : Byte) : Statement (.or a b) := And.intro rfl (And.intro (opcode_nops _) rfl)
theorem xor (a b : Byte) : Statement (.xor a b) := And.intro rfl (And.intro (opcode_nops _) rfl)
theorem not (a : Byte) : Statement (.not a) := And.intro rfl (And.intro (opcode_nops _) rfl)
theorem shl (a b : Byte) : Statement (.shl a b) := And.intro rfl (And.intro (opcode_nops _) rfl)
theorem shr (a b : Byte) : Statement (.shr a b) := And.intro rfl (And.intro (opcode_nops _) rfl)
theorem mod (a b : Byte) : Statement (.mod a b) := And.intro rfl (And.intro (opcode_nops _) rfl)

end Sys2Proof.Laws.Length
end

