-- ==== Sys2Proof/Tests/Slice0.lean ====
section
/-! SUPPORT. Tests of single steps, with results taken from spec/95_test_vectors.md (V<n>, S<n>) or worked out by hand from the
rules; and, for every statement of Certificates/Slice0/Obligations.lean with hypotheses, a named witness that meets them. -/

namespace Sys2Proof.Tests
open Sys2Proof Sys2Proof.Machine

/-! ## Helpers -/

/-- The reset state with `code` at `pc`. -/
def atPc (pc : PcWord) (code : List Byte) : State :=
  { State.reset with pc := pc, mem := Memory.writeBytes [] pc.toNat code }

/-- `atPc` with registers set. -/
def withRegsSet (pc : PcWord) (code : List Byte) (rs : List (RegIdx × Byte)) : State :=
  rs.foldl (fun s r => s.setReg r.1 r.2) (atPc pc code)

/-- The next state of an outcome. -/
def nextOf {σ : Type} (r : Host.Outcome σ Fault Refusal) : Option σ :=
  match r with
  | .next t => some t
  | .fault _ => none
  | .refused _ => none

/-- A view of the state after one step. -/
def after {α : Type} (s : State) (f : State → α) : Option α := (nextOf (step s)).map f

/-! ## Well-formedness refuses -/

/-- Each check's ill-formed term: the first register operand above 7, one-operand forms. -/
theorem test_ill_formed_one_operand :
    Instr.wellFormed (.ldi 8 0) = false ∧ Instr.wellFormed (.prn 8) = false ∧ Instr.wellFormed (.push 8) = false ∧
    Instr.wellFormed (.pop 200) = false ∧ Instr.wellFormed (.call 9) = false ∧ Instr.wellFormed (.jmp 8) = false ∧
    Instr.wellFormed (.jeq 9) = false ∧ Instr.wellFormed (.jne 9) = false ∧ Instr.wellFormed (.not 255) = false := by
  decide

/-- The first register operand above 7, two-operand forms. -/
theorem test_ill_formed_first_operand :
    Instr.wellFormed (.add 8 0) = false ∧ Instr.wellFormed (.mul 8 0) = false ∧ Instr.wellFormed (.cmp 8 0) = false ∧
    Instr.wellFormed (.and 8 0) = false ∧ Instr.wellFormed (.or 8 0) = false ∧ Instr.wellFormed (.xor 8 0) = false ∧
    Instr.wellFormed (.shl 8 0) = false ∧ Instr.wellFormed (.shr 8 0) = false ∧ Instr.wellFormed (.mod 8 0) = false := by
  decide

/-- The second register operand above 7. -/
theorem test_ill_formed_second_operand :
    Instr.wellFormed (.add 0 8) = false ∧ Instr.wellFormed (.mul 0 8) = false ∧ Instr.wellFormed (.cmp 0 8) = false ∧
    Instr.wellFormed (.and 0 8) = false ∧ Instr.wellFormed (.or 0 8) = false ∧ Instr.wellFormed (.xor 0 8) = false ∧
    Instr.wellFormed (.shl 0 8) = false ∧ Instr.wellFormed (.shr 0 8) = false ∧ Instr.wellFormed (.mod 0 8) = false := by
  decide

/-- LDI's immediate is never checked (R132). -/
theorem test_well_formed : Instr.wellFormed (.ldi 7 255) = true ∧ Instr.wellFormed (.mod 7 7) = true := by decide

/-! ## Decoding: every row of R56, the word written out bit by bit -/

theorem test_decode_hlt : decode [0b00000001] = .ok (.hlt, []) := by rfl
theorem test_decode_ldi : decode [0b10000010, 0b00000101, 0b11111111] = .ok (.ldi 5 255, []) := by rfl
theorem test_decode_prn : decode [0b01000111, 0b00000010] = .ok (.prn 2, []) := by rfl
theorem test_decode_add : decode [0b10100000, 0b00000011, 0b00000100] = .ok (.add 3 4, []) := by rfl
theorem test_decode_mul : decode [0b10100010, 0b00000011, 0b00000100] = .ok (.mul 3 4, []) := by rfl
theorem test_decode_cmp : decode [0b10100111, 0b00000011, 0b00000100] = .ok (.cmp 3 4, []) := by rfl
theorem test_decode_push : decode [0b01000101, 0b00000111] = .ok (.push 7, []) := by rfl
theorem test_decode_pop : decode [0b01000110, 0b11001000] = .ok (.pop 200, []) := by rfl
theorem test_decode_call : decode [0b01010000, 0b00000001] = .ok (.call 1, []) := by rfl
theorem test_decode_ret : decode [0b00010001] = .ok (.ret, []) := by rfl
theorem test_decode_jmp : decode [0b01010100, 0b00000010] = .ok (.jmp 2, []) := by rfl
theorem test_decode_jeq : decode [0b01010101, 0b00000010] = .ok (.jeq 2, []) := by rfl
theorem test_decode_jne : decode [0b01010110, 0b00000010] = .ok (.jne 2, []) := by rfl
theorem test_decode_and : decode [0b10101000, 0b00000011, 0b00000100] = .ok (.and 3 4, []) := by rfl
theorem test_decode_or : decode [0b10101010, 0b00000011, 0b00000100] = .ok (.or 3 4, []) := by rfl
theorem test_decode_xor : decode [0b10101011, 0b00000011, 0b00000100] = .ok (.xor 3 4, []) := by rfl
/-- NOT has one operand byte; the byte after it is the next opcode (C6). -/
theorem test_decode_not : decode [0b01101001, 0b00000010, 0b00000001] = .ok (.not 2, [0b00000001]) := by rfl
theorem test_decode_shl : decode [0b10101100, 0b00000011, 0b00000100] = .ok (.shl 3 4, []) := by rfl
theorem test_decode_shr : decode [0b10101101, 0b00000011, 0b00000100] = .ok (.shr 3 4, []) := by rfl
theorem test_decode_mod : decode [0b10100100, 0b00000011, 0b00000100] = .ok (.mod 3 4, []) := by rfl

/-- R58: NOP, SUB and INC bytes of the family are unrecognised here. -/
theorem test_decode_unrecognised :
    decode [0x00] = .error (.unknownOpcode 0x00) ∧ decode [0xA1, 0, 1] = .error (.unknownOpcode 0xA1) ∧
    decode [0x65, 0] = .error (.unknownOpcode 0x65) ∧ decode [] = .error .noOpcode := ⟨rfl, rfl, rfl, rfl⟩

/-- The table's numbering: the first byte is bits 7..0, the second bits 15..8. -/
theorem test_table_word :
    decodeTableWord 8 0xA0 = some (.add 0 0) ∧ decodeTableWord 24 0x0403A0 = some (.add 3 4) ∧
    decodeTableWord 8 0xFF = none := by decide

/-- The placed word runs as the first instruction after reset: PUSH R0 with operand bytes of zeros. -/
theorem test_withFetchWord :
    ((nextOf (step (State.reset.withFetchWord 8 0x45))).map fun t => (t.reg 7, t.pc)) = some (0xF3, 2) := by decide

/-! ## Single steps -/

/-- V1 -/
theorem test_hlt : after (atPc 0 [0x01]) (fun t => (t.rs, t.pc)) = some (.halted .hlt, 1) := by decide
/-- V2: no operand bytes, so no fault at the top -/
theorem test_hlt_at_255 : after (atPc 255 [0x01]) (fun t => (t.rs, t.pc)) = some (.halted .hlt, 256) := by decide
/-- V11 -/
theorem test_ldi : after (atPc 0 [0x82, 5, 255]) (fun t => (t.reg 5, t.pc)) = some (255, 3) := by decide
/-- V13 -/
theorem test_ldi_bad_register :
    after (atPc 0 [0x82, 8, 1]) (fun t => (t.rs, t.pc, t.regs)) =
      some (.faulted (.invalidRegister 8), 0, State.reset.regs) := by decide
/-- V16 -/
theorem test_prn : after (withRegsSet 0 [0x47, 2] [(2, 255)]) (fun t => (t.out, t.pc)) = some ([255], 2) := by decide
/-- V19 -/
theorem test_prn_at_255 :
    after (atPc 255 [0x47]) (fun t => (t.rs, t.pc, t.out)) = some (.faulted (.addressOutOfRange 256), 255, []) := by decide
/-- V21 -/
theorem test_add_wraps : after (withRegsSet 0 [0xA0, 0, 1] [(0, 200), (1, 100)]) (fun t => (t.reg 0, t.reg 1, t.pc)) =
    some (44, 100, 3) := by decide
/-- V60 -/
theorem test_add_first_operand_first :
    after (atPc 0 [0xA0, 9, 8]) (fun t => t.rs) = some (.faulted (.invalidRegister 9)) := by decide
/-- V26 -/
theorem test_mul_wraps : after (withRegsSet 0 [0xA2, 0, 1] [(0, 255), (1, 255)]) (fun t => t.reg 0) = some 1 := by decide
/-- V51: unsigned -/
theorem test_cmp_unsigned : after (withRegsSet 0 [0xA7, 0, 1] [(0, 0x80), (1, 0x7F)]) (fun t => t.fl) =
    some ⟨false, true, false⟩ := by decide
/-- V48: the stale flag is cleared -/
theorem test_cmp_clears :
    after ((withRegsSet 0 [0xA7, 0, 1] [(0, 3), (1, 5)]).setFlags ⟨false, false, true⟩) (fun t => (t.fl, t.pc)) =
    some (⟨true, false, false⟩, 3) := by decide
/-- V28 -/
theorem test_and : after (withRegsSet 0 [0xA8, 0, 1] [(0, 0xCC), (1, 0xAA)]) (fun t => t.reg 0) = some 0x88 := by decide
/-- V29 -/
theorem test_or : after (withRegsSet 0 [0xAA, 0, 1] [(0, 0xCC), (1, 0xAA)]) (fun t => t.reg 0) = some 0xEE := by decide
/-- V30 -/
theorem test_xor : after (withRegsSet 0 [0xAB, 0, 1] [(0, 0xCC), (1, 0xAA)]) (fun t => t.reg 0) = some 0x66 := by decide
/-- V45 -/
theorem test_not : after (withRegsSet 0 [0x69, 2] [(2, 0x0F)]) (fun t => (t.reg 2, t.pc)) = some (0xF0, 2) := by decide
/-- V63 -/
theorem test_not_at_254 : after (withRegsSet 254 [0x69, 3] [(3, 1)]) (fun t => (t.reg 3, t.pc)) = some (254, 256) := by decide
/-- V31 -/
theorem test_shl : after (withRegsSet 0 [0xAC, 0, 1] [(0, 0x83), (1, 1)]) (fun t => t.reg 0) = some 6 := by decide
/-- V34: the count is not masked -/
theorem test_shl_not_masked : after (withRegsSet 0 [0xAC, 0, 1] [(0, 0xFF), (1, 255)]) (fun t => t.reg 0) = some 0 := by decide
/-- V36: logical -/
theorem test_shr : after (withRegsSet 0 [0xAD, 0, 1] [(0, 0x83), (1, 1)]) (fun t => t.reg 0) = some 0x41 := by decide
/-- V39: the count is not masked -/
theorem test_shr_not_masked : after (withRegsSet 0 [0xAD, 0, 1] [(0, 0xFF), (1, 9)]) (fun t => t.reg 0) = some 0 := by decide
/-- V40 -/
theorem test_mod : after (withRegsSet 0 [0xA4, 0, 1] [(0, 17), (1, 5)]) (fun t => t.reg 0) = some 2 := by decide
/-- V44, S5 -/
theorem test_mod_by_zero : after (withRegsSet 6 [0xA4, 0, 1] [(0, 17)]) (fun t => (t.rs, t.reg 0, t.pc)) =
    some (.faulted (.divisionByZero 1), 17, 6) := by decide
/-- V72: PUSH R7 stores the decremented value -/
theorem test_push_r7 : after (atPc 0 [0x45, 7]) (fun t => (t.reg 7, t.mem.read 0xF3)) = some (0xF3, 0xF3) := by decide
/-- V74: the stack pointer wraps -/
theorem test_push_wraps : after (withRegsSet 4 [0x45, 0] [(0, 0x5A), (7, 0)]) (fun t => (t.reg 7, t.mem.read 255, t.pc)) =
    some (255, 0x5A, 6) := by decide
/-- V73: POP R7 ends at the popped byte plus 1 -/
theorem test_pop_r7 :
    after ((withRegsSet 0 [0x46, 7] [(7, 0xF3)]).setMem [(0, 0x46), (1, 7), (0xF3, 0x20)]) (fun t => t.reg 7) =
    some 0x21 := by decide
/-- V75: the stack pointer wraps -/
theorem test_pop_wraps :
    after ((withRegsSet 0 [0x46, 2] [(7, 255)]).setMem [(0, 0x46), (1, 2), (255, 9)]) (fun t => (t.reg 2, t.reg 7, t.pc)) =
    some (9, 0, 2) := by decide
/-- V80 -/
theorem test_call : after (withRegsSet 3 [0x50, 1] [(1, 0x10)]) (fun t => (t.mem.read 0xF3, t.reg 7, t.pc)) =
    some (5, 0xF3, 0x10) := by decide
/-- V82: CALL R7 jumps to the decremented value -/
theorem test_call_r7 : after (atPc 0 [0x50, 7]) (fun t => (t.mem.read 0xF3, t.reg 7, t.pc)) = some (2, 0xF3, 0xF3) := by decide
/-- V81 -/
theorem test_ret :
    after ((withRegsSet 0x12 [] [(7, 0xF3)]).setMem [(0x12, 0x11), (0xF3, 5)]) (fun t => (t.pc, t.reg 7)) = some (5, 0xF4) := by
  decide
/-- V86 -/
theorem test_jmp : after (withRegsSet 9 [0x54, 2] [(2, 0x20)]) (fun t => t.pc) = some 0x20 := by decide
/-- V89 -/
theorem test_jeq_taken :
    after ((withRegsSet 6 [0x55, 2] [(2, 0x30)]).setFlags ⟨false, false, true⟩) (fun t => t.pc) = some 0x30 := by decide
/-- V94: not taken, so the register is not checked -/
theorem test_jeq_not_taken_unchecked : after (atPc 0 [0x55, 9]) (fun t => (t.pc, t.rs)) = some (2, .running) := by decide
/-- V92 -/
theorem test_jne_not_taken :
    after ((withRegsSet 6 [0x56, 2] [(2, 0x30)]).setFlags ⟨false, false, true⟩) (fun t => t.pc) = some 8 := by decide
/-- V95 -/
theorem test_jne_taken_checked :
    after (atPc 2 [0x56, 9]) (fun t => (t.pc, t.rs)) = some (2, .faulted (.invalidRegister 9)) := by decide

/-! ## Witnesses: concrete values that meet each statement's hypotheses, at the boundaries of its clauses -/

theorem witness_DecodeOfEncode : ∀ o p, opMap o = opMap p → o = p := fun _ _ => opMap_injective

theorem witness_EncodeOfDecode : decodeWith opMap [0x82, 7, 255, 1] = .ok (.ldi 7 255, [1]) := rfl

theorem witness_OpcodeByteMatchesAtMostOneRow :
    opMap .hlt = 0x01 ∧ lookup 0x01 = some .hlt ∧ (∀ o ∈ Opcode.all, opMap o ≠ 0xFF) ∧ (∀ o ∈ Opcode.all, opMap o ≠ 0x00) := by
  decide

theorem witness_OtherOpcodeBytesAreUnrecognised :
    ∀ b ∈ [(0x00 : Byte), 0xFF], b ∉ ([0x01, 0x82, 0x47, 0xA0, 0xA2, 0xA7, 0x45, 0x46, 0x50, 0x11, 0x54, 0x55, 0x56, 0xA8, 0xAA,
      0xAB, 0x69, 0xAC, 0xAD, 0xA4] : List Byte) := by
  decide

/-- A 3-byte instruction at 253 and a 1-byte one at 255. -/
theorem witness_StepRunsTheDecodedInstruction :
    (atPc 253 [0xA0, 0, 1]).rs = .running ∧ decode (atPc 253 [0xA0, 0, 1]).codeBytes = .ok (.add 0 1, []) ∧
    (atPc 255 [0x11]).rs = .running ∧ decode (atPc 255 [0x11]).codeBytes = .ok (.ret, []) := ⟨rfl, rfl, rfl, rfl⟩

theorem witness_TerminalStatesAbsorb :
    (State.reset.halt .hlt).rs ≠ .running ∧ (State.reset.raise (.invalidRegister 8)).rs ≠ .running ∧
    ∃ d, perform .step ⟨State.reset.halt .hlt, .stepped⟩ = some (.next d) ∧ Transaction.step ≠ .reset :=
  ⟨by decide, by decide, _, rfl, by decide⟩

/-- V7 -/
theorem witness_OpcodeFetchAbove255Faults : (atPc 256 []).rs = .running ∧ 255 < (atPc 256 []).pc.toNat := by decide

/-- V6, at the lowest and the highest address. -/
theorem witness_UnknownOpcodeHaltsWithDiagnostic :
    ∀ s ∈ [atPc 0 [0xA1, 0, 1], atPc 255 [0xFF]], s.rs = .running ∧ s.pc.toNat ≤ 255 ∧
      s.mem.read s.pc.toNat ∉ ([0x01, 0x82, 0x47, 0xA0, 0xA2, 0xA7, 0x45, 0x46, 0x50, 0x11, 0x54, 0x55, 0x56, 0xA8, 0xAA, 0xAB,
        0x69, 0xAC, 0xAD, 0xA4] : List Byte) := by
  decide

/-- LDI at 254 (its second operand is out of range) and at 253 (it fits). -/
theorem witness_OperandFetchNearTheTop :
    (lookup ((atPc 254 [0x82, 0]).mem.read 254) = some .ldi ∧ 255 < 254 + Opcode.ldi.format.nops) ∧
    (lookup ((atPc 253 [0x82, 0, 1]).mem.read 253) = some .ldi ∧ 253 + Opcode.ldi.format.nops ≤ 255) := by
  decide

/-- MOD by zero. -/
theorem witness_FaultsArePrecise :
    (atPc 6 [0xA4, 0, 1]).rs = .running ∧ ∃ t, step (atPc 6 [0xA4, 0, 1]) = .next t ∧ t.rs = .faulted (.divisionByZero 1) :=
  ⟨rfl, _, rfl, rfl⟩

/-- Each clause of the priority: pc 256; 0xA1 at 255; MUL at 255; MOD at 254; MOD R9, R1; MOD R0, R9; MOD R0, R1 by zero;
CALL R0 at 254. -/
theorem witness_FaultPriority :
    255 < (atPc 256 []).pc.toNat ∧
    lookup ((atPc 255 [0xA1]).mem.read 255) = none ∧
    (lookup ((atPc 255 [0xA2]).mem.read 255) = some .mul ∧ 1 ≤ Opcode.mul.format.nops) ∧
    (lookup ((atPc 254 [0xA4, 9]).mem.read 254) = some .mod ∧ Opcode.mod.format.nops = 2) ∧
    (atPc 0 [0xA4, 9, 1]).firstBadRegister (.mod 9 1) = some 9 ∧
    (atPc 0 [0xA4, 0, 9]).firstBadRegister (.mod 0 9) = some 9 ∧
    ((atPc 0 [0xA4, 0, 1]).firstBadRegister (.mod 0 1) = none ∧ (atPc 0 [0xA4, 0, 1]).reg 1 = 0) ∧
    ((atPc 254 [0x50, 0]).firstBadRegister (.call 0) = none ∧ (atPc 254 [0x50, 0]).pc.toNat = 254) := by
  decide

theorem witness_FaultPriority_decodes :
    decode (atPc 0 [0xA4, 9, 1]).codeBytes = .ok (.mod 9 1, []) ∧ decode (atPc 0 [0xA4, 0, 1]).codeBytes = .ok (.mod 0 1, []) ∧
    decode (atPc 254 [0x50, 0]).codeBytes = .ok (.call 0, []) := ⟨rfl, rfl, rfl⟩

/-- Both sides: operand 8 raises, operand 7 does not, and JEQ's is not used when not taken. -/
theorem witness_InvalidRegisterExactlyWhen :
    ((nextOf (exec (.push 8) State.reset)).map (·.rs)) = some (.faulted (.invalidRegister 8)) ∧
    State.reset.firstBadRegister (.push 8) = some 8 ∧
    ((nextOf (exec (.push 7) State.reset)).map (·.rs)) = some .running ∧ State.reset.firstBadRegister (.push 7) = none ∧
    State.reset.firstBadRegister (.jeq 8) = none := by
  decide

/-- The three ways, and a step that takes none of them. -/
theorem witness_AddressOutOfRangeExactlyWhen :
    after (atPc 256 []) (·.rs) = some (.faulted (.addressOutOfRange 256)) ∧
    after (atPc 254 [0x82, 0]) (·.rs) = some (.faulted (.addressOutOfRange 256)) ∧
    after (atPc 254 [0x50, 7]) (·.rs) = some (.faulted (.addressOutOfRange 256)) ∧
    after (atPc 253 [0x50, 7]) (·.rs) = some .running := by
  decide

theorem witness_DivisionByZeroExactlyWhen :
    ((nextOf (exec (.mod 7 0) State.reset)).map (·.rs)) = some (.faulted (.divisionByZero 0)) ∧
    ((nextOf (exec (.mod 0 7) State.reset)).map (·.rs)) = some .running := by
  decide

/-- A fault, an unknown opcode, an advance to 256, a jump to 255, a not-taken JEQ. -/
theorem witness_PcUpdatedExactlyOnce :
    after (atPc 6 [0xA4, 0, 1]) (·.pc) = some 6 ∧ after (atPc 7 [0xA1]) (·.pc) = some 7 ∧
    after (atPc 254 [0x47, 0]) (·.pc) = some 256 ∧ after (withRegsSet 0 [0x54, 1] [(1, 255)]) (·.pc) = some 255 ∧
    after (atPc 0 [0x55, 1]) (·.pc) = some 2 := by
  decide

theorem witness_HltHaltsAndAdvances : (atPc 255 [0x01]).pc.toNat = 255 := by decide

/-- The two register ranges meet between 7 and 8: used by every statement with clauses `a.toNat < 8` and `7 < a.toNat`. -/
theorem witness_register_operand_ranges : (7 : Byte).toNat < 8 ∧ ¬ 7 < (7 : Byte).toNat ∧ 7 < (8 : Byte).toNat ∧
    ¬ (8 : Byte).toNat < 8 := by decide

/-- LdiLoadsTheImmediate, PrnEmitsTheRegister, NotResult, JmpResult: operand 7, then operand 8. -/
theorem witness_one_operand_results :
    ((nextOf (exec (.ldi 7 1) State.reset)).map (·.reg 7)) = some 1 ∧
    ((nextOf (exec (.ldi 8 1) State.reset)).map (·.rs)) = some (.faulted (.invalidRegister 8)) ∧
    ((nextOf (exec (.prn 7) State.reset)).map (·.out)) = some [0xF4] ∧
    ((nextOf (exec (.prn 8) State.reset)).map (·.rs)) = some (.faulted (.invalidRegister 8)) ∧
    ((nextOf (exec (.not 7) State.reset)).map (·.reg 7)) = some 0x0B ∧
    ((nextOf (exec (.not 8) State.reset)).map (·.rs)) = some (.faulted (.invalidRegister 8)) ∧
    ((nextOf (exec (.jmp 7) State.reset)).map (·.pc)) = some 0xF4 ∧
    ((nextOf (exec (.jmp 8) State.reset)).map (·.rs)) = some (.faulted (.invalidRegister 8)) := by
  decide

/-- AddResult, MulResult, CmpSetsExactlyOneFlag, AndResult, OrResult, XorResult: operands 7 and 7, first operand 8, second
operand 8. -/
theorem witness_two_operand_results :
    ∀ mk ∈ [Instr.add, .mul, .cmp, .and, .or, .xor],
      ((nextOf (exec (mk 7 7) State.reset)).map (·.rs)) = some .running ∧
      ((nextOf (exec (mk 8 0) State.reset)).map (·.rs)) = some (.faulted (.invalidRegister 8)) ∧
      ((nextOf (exec (mk 7 8) State.reset)).map (·.rs)) = some (.faulted (.invalidRegister 8)) := by
  decide

/-- ShlResult, ShrResult: a count of 7 and a count of 8, and the two bad operands. -/
theorem witness_shift_results :
    ∀ mk ∈ [Instr.shl, .shr],
      ((nextOf (exec (mk 0 1) (withRegsSet 0 [] [(0, 0x81), (1, 7)]))).map fun t => decide (t.reg 0 = 0)) = some false ∧
      8 ≤ ((withRegsSet 0 [] [(0, 0x81), (1, 8)]).reg 1).toNat ∧
      ((nextOf (exec (mk 0 1) (withRegsSet 0 [] [(0, 0x81), (1, 8)]))).map (·.reg 0)) = some 0 ∧
      ((nextOf (exec (mk 8 0) State.reset)).map (·.rs)) = some (.faulted (.invalidRegister 8)) ∧
      ((nextOf (exec (mk 7 8) State.reset)).map (·.rs)) = some (.faulted (.invalidRegister 8)) := by
  decide

/-- ModResult: a divisor of 1, a divisor of 0, and the two bad operands. -/
theorem witness_ModResult :
    ((nextOf (exec (.mod 7 1) (withRegsSet 0 [] [(1, 1)]))).map (·.reg 7)) = some 0 ∧
    State.reset.reg 1 = 0 ∧ ((nextOf (exec (.mod 7 1) State.reset)).map (·.rs)) = some (.faulted (.divisionByZero 1)) ∧
    ((nextOf (exec (.mod 8 0) State.reset)).map (·.rs)) = some (.faulted (.invalidRegister 8)) ∧
    ((nextOf (exec (.mod 7 8) State.reset)).map (·.rs)) = some (.faulted (.invalidRegister 8)) := by
  decide

theorem witness_PushResult :
    State.reset.mem.wf = true ∧ ((nextOf (exec (.push 6) State.reset)).map (·.reg 7)) = some 0xF3 ∧
    ((nextOf (exec (.push 7) State.reset)).map (·.mem.read 0xF3)) = some 0xF3 ∧
    ((nextOf (exec (.push 8) State.reset)).map (·.rs)) = some (.faulted (.invalidRegister 8)) := by
  decide

theorem witness_PopResult :
    (6 : Byte) ≠ 7 ∧ ((nextOf (exec (.pop 6) State.reset)).map fun t => (t.reg 6, t.reg 7)) = some (0, 0xF5) ∧
    ((nextOf (exec (.pop 7) State.reset)).map (·.reg 7)) = some 1 ∧
    ((nextOf (exec (.pop 8) State.reset)).map (·.rs)) = some (.faulted (.invalidRegister 8)) := by
  decide

/-- A pc of 253, which completes; of 254, which faults; and the operand 8 at 254, which faults otherwise. -/
theorem witness_CallResult :
    (atPc 253 [0x50, 7]).mem.wf = true ∧ (atPc 253 [0x50, 7]).pc.toNat ≤ 253 ∧
    ((nextOf (exec (.call 7) (atPc 253 [0x50, 7]))).map fun t => (t.pc, t.mem.read 0xF3)) = some (0xF3, 255) ∧
    254 ≤ (atPc 254 [0x50, 7]).pc.toNat ∧
    ((nextOf (exec (.call 7) (atPc 254 [0x50, 7]))).map (·.rs)) = some (.faulted (.addressOutOfRange 256)) ∧
    ((nextOf (exec (.call 8) (atPc 254 [0x50, 8]))).map (·.rs)) = some (.faulted (.invalidRegister 8)) := by
  decide

theorem witness_JeqResult :
    (State.reset.setFlags ⟨false, false, true⟩).fl.equal = true ∧
    ((nextOf (exec (.jeq 7) (State.reset.setFlags ⟨false, false, true⟩))).map (·.pc)) = some 0xF4 ∧
    ((nextOf (exec (.jeq 8) (State.reset.setFlags ⟨false, false, true⟩))).map (·.rs)) = some (.faulted (.invalidRegister 8)) ∧
    State.reset.fl.equal = false ∧ ((nextOf (exec (.jeq 8) State.reset)).map (·.pc)) = some 2 := by
  decide

theorem witness_JneResult :
    State.reset.fl.equal = false ∧ ((nextOf (exec (.jne 7) State.reset)).map (·.pc)) = some 0xF4 ∧
    ((nextOf (exec (.jne 8) State.reset)).map (·.rs)) = some (.faulted (.invalidRegister 8)) ∧
    (State.reset.setFlags ⟨false, false, true⟩).fl.equal = true ∧
    ((nextOf (exec (.jne 8) (State.reset.setFlags ⟨false, false, true⟩))).map (·.pc)) = some 2 := by
  decide

theorem witness_RegisterWritersFrame :
    Instr.shl 7 1 ∈ [Instr.ldi 7 1, .add 7 1, .mul 7 1, .and 7 1, .or 7 1, .xor 7 1, .not 7, .shl 7 1, .shr 7 1, .mod 7 1] ∧
    ∃ t, exec (.shl 7 1) State.reset = .next t ∧ t.rs = .running := ⟨by decide, _, rfl, rfl⟩

theorem witness_NoRegisterWrittenFrame :
    Instr.cmp 7 1 ∈ [Instr.hlt, .prn 7, .cmp 7 1, .jmp 7, .jeq 7, .jne 7] ∧
    ∃ t, exec (.cmp 7 1) State.reset = .next t ∧ t.fl = ⟨false, true, false⟩ := ⟨by decide, _, rfl, rfl⟩

theorem witness_StoringInstructionsFrame :
    Instr.push 7 ∈ [Instr.push 7, .call 7] ∧
    ∃ t, exec (.push 7) State.reset = .next t ∧ t.mem.read State.reset.decSp.sp.toNat = 0xF3 := ⟨by decide, _, rfl, by decide⟩

theorem witness_LoadingInstructionsFrame :
    Instr.pop 6 ∈ [Instr.pop 6, .ret] ∧ ∃ t, exec (.pop 6) State.reset = .next t ∧ t.rs = .running := ⟨by decide, _, rfl, rfl⟩

theorem witness_OnlyCmpWritesFlags :
    ∃ t, step (atPc 0 [0xA7, 0, 1]) = .next t ∧ t.fl ≠ (atPc 0 [0xA7, 0, 1]).fl := ⟨_, rfl, by decide⟩

/-- A flag-free instruction under any flags; a JEQ under flags that differ in `less` alone. -/
theorem witness_FlagsReadOnlyByJeqJne :
    (∃ t t', exec (.add 0 7) State.reset = .next t ∧ exec (.add 0 7) { State.reset with fl := ⟨false, false, true⟩ } = .next t') ∧
    (⟨true, false, false⟩ : Flags).equal = State.reset.fl.equal ∧
    ∃ t t', exec (.jeq 1) State.reset = .next t ∧ exec (.jeq 1) { State.reset with fl := ⟨true, false, false⟩ } = .next t' :=
  ⟨⟨_, _, rfl, rfl⟩, rfl, _, _, rfl, rfl⟩

theorem witness_OnlyPushAndCallWriteMemory :
    ∃ t, step (atPc 0 [0x45, 7]) = .next t ∧ t.mem ≠ (atPc 0 [0x45, 7]).mem := ⟨_, rfl, by decide⟩

theorem witness_OutputOnlyGrowsByPrn :
    ∃ t, step (atPc 0 [0x47, 7]) = .next t ∧ t.out = (atPc 0 [0x47, 7]).out ++ [0xF4] := ⟨_, rfl, by decide⟩

/-- A jump to the highest address, a RET, a taken JEQ and JNE, a CALL, and CALL R7 to the decremented stack pointer (V82). -/
theorem witness_TransfersSetAByteAddress :
    ((nextOf (exec (.jmp 1) (withRegsSet 0 [] [(1, 255)]))).map fun t => (t.pc, t.rs)) = some (255, .running) ∧
    ((nextOf (exec .ret State.reset)).map fun t => (t.pc, t.rs)) = some (0, .running) ∧
    ((nextOf (exec (.jeq 7) (State.reset.setFlags ⟨false, false, true⟩))).map fun t => (t.pc, t.rs)) = some (0xF4, .running) ∧
    ((nextOf (exec (.jne 7) State.reset)).map fun t => (t.pc, t.rs)) = some (0xF4, .running) ∧
    ((nextOf (exec (.call 1) (withRegsSet 253 [] [(1, 255)]))).map fun t => (t.pc, t.rs)) = some (255, .running) ∧
    ((nextOf (exec (.call 7) State.reset)).map fun t => (t.pc, t.rs)) = some (0xF3, .running) := by
  decide

/-- PUSH R6, POP R0 at 252, the highest pc that fits, with the stack below. -/
theorem witness_PushThenPop :
    let s := withRegsSet 252 [0x45, 6, 0x46, 0] [(6, 42)]
    s.Inv ∧ s.rs = .running ∧ s.pc.toNat ≤ 252 ∧ (6 : Fin 8) ≠ 7 ∧ (0 : Fin 8) ≠ 7 ∧
    s.mem.read s.pc.toNat = 0x45 ∧ s.mem.read (s.pc.toNat + 1) = BitVec.ofNat 8 (6 : Fin 8).val ∧
    s.mem.read (s.pc.toNat + 2) = 0x46 ∧ s.mem.read (s.pc.toNat + 3) = BitVec.ofNat 8 (0 : Fin 8).val ∧
    ((s.reg 7).toNat + 255) % 256 ≠ s.pc.toNat + 2 ∧ ((s.reg 7).toNat + 255) % 256 ≠ s.pc.toNat + 3 := by
  decide

/-- CALL R1 at 3, and a RET right at its target. -/
theorem witness_CallThenRet :
    let s := withRegsSet 3 [0x50, 1] [(1, 0x10)]
    s.Inv ∧ s.rs = .running ∧ ∃ t, exec (.call 1) s = .next t ∧ t.rs = .running ∧
    ∃ v, exec .ret t = .next v ∧ v.pc = 5 := ⟨by decide, rfl, _, rfl, rfl, _, rfl, by decide⟩

/-- V79: PUSH R0 at 1 over the instruction at 3, with HLT's byte and with an unrecognised one. -/
theorem witness_StoreIsSeenByTheNextFetch :
    ∀ v ∈ [(0x01 : Byte), 0x00],
      let s := withRegsSet 1 [0x45, 0, 0x47] [(0, v), (7, 4)]
      s.Inv ∧ s.rs = .running ∧ s.pc.toNat ≤ 253 ∧ (0 : Fin 8) ≠ 7 ∧ s.mem.read s.pc.toNat = 0x45 ∧
      s.mem.read (s.pc.toNat + 1) = BitVec.ofNat 8 (0 : Fin 8).val ∧ ((s.reg 7).toNat + 255) % 256 = s.pc.toNat + 2 ∧
      s.reg 0 = v ∧ lookup 0x00 = none := by
  decide

/-- The last cell, and the first address that is none. -/
theorem witness_MemoryIsAFlatStore :
    Memory.wf [(3, 1), (255, 9)] = true ∧ Memory.read? [(3, 1), (255, 9)] 255 = some 9 ∧
    Memory.write? [(3, 1), (255, 9)] 255 0 = some [(3, 1)] ∧ Memory.read? [(3, 1), (255, 9)] 256 = none ∧
    Memory.write? [(3, 1), (255, 9)] 256 7 = none := by
  decide

theorem witness_RegisterAccessContract :
    regIdx? 7 = some 7 ∧ regIdx? 8 = none ∧ Instr.wellFormed (.push 7) = true ∧
    ∃ t, exec (.push 7) State.reset = .next t ∧ t.rs = .running := ⟨by decide, by decide, by decide, _, rfl, rfl⟩

/-- An image that begins with an unrecognised byte, one that begins with HLT, and one that begins with PRN R3. -/
theorem witness_ExecutionStartsAtAddressZero :
    (∃ s, boot [0x00] = some s) ∧ lookup 0x00 = none ∧ (∃ s, boot [0x01, 0x02] = some s) ∧ opMap .hlt = 0x01 ∧
    (∃ s, boot [0x47, 3, 0x01] = some s) ∧ [0x47, 3, 0x01] = encode (.prn 3) ++ [0x01] :=
  ⟨⟨_, rfl⟩, by decide, ⟨_, rfl⟩, rfl, ⟨_, rfl⟩, rfl⟩

/-- The session after a list of transactions from reset. -/
def sessionAfter (trs : List Transaction) : Option Session :=
  trs.foldl (fun c tr => c.bind fun c => (perform tr c).bind nextOf) (some Session.reset)

/-- The longest image, a longer one; a load, a step and a run that are performed. -/
theorem witness_BootLoadsTheImage :
    (List.replicate 256 (1 : Byte)).length ≤ 256 ∧ 256 < (List.replicate 257 (1 : Byte)).length ∧
    (∃ d, perform (.load [2, 3]) Session.reset = some (.next d)) ∧
    (∃ d, perform .step Session.reset = some (.next d) ∧ d.phase = .stepped ∧
      ∃ e, perform (.runFor 1) d = some (.next e)) := by
  refine ⟨Nat.le_of_eq List.length_replicate, ?_, ⟨_, rfl⟩, ⟨_, rfl, rfl, _, rfl⟩⟩
  rw [List.length_replicate]; decide

/-- spec/70_reset_and_hazards.md R163: the cells beyond the image are 0, whatever an earlier load put there. -/
theorem test_second_load_leaves_nothing_of_the_first :
    (sessionAfter [.load [2, 3], .load [1]]).map (fun c => (c.engine.mem.read 0, c.engine.mem.read 1)) = some (1, 0) := by decide

/-- spec/20_memory.md R41: JMP R0 at 0 steps to the state it started from, and no load may come then; after a reset it may. -/
theorem test_no_load_after_the_first_step :
    (sessionAfter [.load [0x54, 0x00], .step]).map (·.engine) = (sessionAfter [.load [0x54, 0x00]]).map (·.engine) ∧
    sessionAfter [.load [0x54, 0x00], .step, .load [1]] = none ∧
    (sessionAfter [.load [0x54, 0x00], .step, .reset, .load [1]]).map (·.engine.mem) = some [(0, 1)] := by decide

/-- spec/20_memory.md R41: the host reads memory once the engine has stopped. -/
theorem test_host_reads_when_stopped :
    State.hostRead? (atPc 0 [0x01]) 0 = none ∧ after (atPc 0 [0x01]) (·.hostRead? 0) = some (some 1) := by decide

theorem witness_BootMeetsTheInvariants : ∃ s, boot [0x82, 0, 8, 1] = some s := ⟨_, rfl⟩

/-- An instruction that ends at the last address. -/
theorem witness_StepKeepsTheStateInvariants :
    (atPc 254 [0x47, 0]).Inv ∧ ∃ t, step (atPc 254 [0x47, 0]) = .next t ∧ t.pc = 256 := ⟨by decide, _, rfl, by decide⟩

/-- A step that ends the run in each kind of terminal state. -/
theorem witness_StepKeepsTheStopReasonTrue :
    (∀ s ∈ [atPc 255 [0x01], atPc 7 [0xA1], atPc 256 [], atPc 0 [0x47, 8], atPc 0 [0xA4, 0, 1]], s.Inv ∧ s.rs = .running) ∧
    (atPc 255 [0x01]).StopReason ∧ (atPc 7 [0xA1]).StopReason ∧ (atPc 256 []).StopReason ∧ (atPc 0 [0x47, 8]).StopReason ∧
    (atPc 0 [0xA4, 0, 1]).StopReason ∧
    after (atPc 255 [0x01]) (·.rs) = some (.halted .hlt) ∧ after (atPc 7 [0xA1]) (·.rs) = some (.halted (.unknownOpcode 0xA1)) ∧
    after (atPc 256 []) (·.rs) = some (.faulted (.addressOutOfRange 256)) ∧
    after (atPc 0 [0x47, 8]) (·.rs) = some (.faulted (.invalidRegister 8)) ∧
    after (atPc 0 [0xA4, 0, 1]) (·.rs) = some (.faulted (.divisionByZero 1)) :=
  ⟨by decide, trivial, trivial, trivial, trivial, trivial, by decide, by decide, by decide, by decide, by decide⟩

/-- S1 stopped after two steps; S7 after one; P7 still running after one. -/
theorem witness_RunsEndInOneOfThreeWays :
    (∃ s t, boot [0x82, 3, 0xAB, 0x01] = some s ∧ runFor 2 s = .next t ∧ t.Successful) ∧
    (∃ s t, boot [0xFF] = some s ∧ runFor 1 s = .next t ∧ t.CleanStop 0xFF) ∧
    (∃ s t, boot [0x47, 8] = some s ∧ runFor 1 s = .next t ∧ t.ErrorStop (.invalidRegister 8)) ∧
    (∃ s t, boot [0x82, 0, 1] = some s ∧ runFor 1 s = .next t ∧ t.stopped = false) :=
  ⟨⟨_, _, rfl, rfl, rfl⟩, ⟨_, _, rfl, rfl, rfl⟩, ⟨_, _, rfl, rfl, rfl⟩, ⟨_, _, rfl, rfl, rfl⟩⟩

end Sys2Proof.Tests
end

section
/-! SUPPORT. Decoding undoes encoding (spec/30_encoding.md R50, R52, R57), in two parts: the operand bytes complete the
instruction, and the opcode byte selects its row. -/

namespace Sys2Proof

/-- An instruction's own operand bytes complete it, and what follows them is left over; the converse of `takeOperands_ok`. -/
theorem takeOperands_operands_append (i : Instr) (rest : List Byte) :
    takeOperands i.opcode.format (i.operands ++ rest) = .ok (i, rest) := by
  cases i <;> rfl

/-- An opcode byte that selects a row leaves the decoder with that row's operand assembly (R57). -/
theorem decodeWith_cons_of_lookupWith {m : OpMap} {b : Byte} {o : Opcode} (h : lookupWith m b = some o) (bs : List Byte) :
    decodeWith m (b :: bs) = takeOperands o.format bs := by
  simp only [decodeWith, h]

/-- Settles O3: distinct values make the opcode byte select the instruction's own row, whose format then takes exactly its
operand bytes. -/
theorem decodeOfEncode : Obligations.DecodeOfEncode := by
  intro m hm i rest
  calc decodeWith m (encodeWith m i ++ rest)
      = takeOperands i.opcode.format (i.operands ++ rest) :=
        decodeWith_cons_of_lookupWith (lookupWith_self hm i.opcode) _
    _ = .ok (i, rest) := takeOperands_operands_append i rest

end Sys2Proof
end

section
/-! SUPPORT. What an instruction that completes does to the state, by kind: one case per way of changing it, so that a fact
about every instruction is a proof of ten short cases. The exact values are `Completes`'s; here stand the fields touched. -/

namespace Sys2Proof

/-- The operand bytes of the registers an instruction writes, register 7 among them for the stack instructions
(spec/10_state.md R13). -/
def Instr.destinations : Instr → List Byte
  | .hlt | .prn _ | .cmp _ _ | .jmp _ | .jeq _ | .jne _ => []
  | .ldi a _ | .add a _ | .mul a _ | .and a _ | .or a _ | .xor a _ | .not a | .shl a _ | .shr a _ | .mod a _ => [a]
  | .push _ | .call _ | .ret => [7]
  | .pop a => [a, 7]

/-- No instruction has more than two operand bytes (spec/30_encoding.md R51). -/
theorem Opcode.nops_le_two (o : Opcode) : o.format.nops ≤ 2 := by
  cases o <;> decide

namespace Machine

/-- The kinds of completed instruction, each with its next state from `s`; the values written are left open. -/
inductive Effect (s : State) : Instr → State → Prop
  | halt : Effect s .hlt ((s.halt .hlt).advance 1)
  | write {i : Instr} {a : Byte} (hi : i.destinations = [a]) (ha : a.toNat < 8) (v : Byte) :
      Effect s i ((s.setReg ⟨a.toNat, ha⟩ v).advance i.length)
  | emit (a v : Byte) : Effect s (.prn a) ((s.emit v).advance 2)
  | compare (a b x y : Byte) : Effect s (.cmp a b) ((s.setFlags (compareFlags x y)).advance 3)
  | push (a v : Byte) : Effect s (.push a) ((s.decSp.setMem (s.mem.write (s.sp - 1).toNat v)).advance 2)
  | call (a v w : Byte) : Effect s (.call a) ((s.decSp.setMem (s.mem.write (s.sp - 1).toNat v)).jump w)
  | pop {a : Byte} (ha : a.toNat < 8) (v : Byte) :
      Effect s (.pop a) ((s.setReg ⟨a.toNat, ha⟩ v).incSp.advance 2)
  | ret (v : Byte) : Effect s .ret (s.incSp.jump v)
  | jump {i : Instr} {a : Byte} (hi : i ∈ [.jmp a, .jeq a, .jne a]) (v : Byte) : Effect s i (s.jump v)
  | skip {i : Instr} {a : Byte} (hi : i ∈ [.jeq a, .jne a]) : Effect s i (s.advance 2)

/-- Every completed instruction is of one of the kinds. -/
theorem Completes.effect {i : Instr} {s t : State} (h : Completes i s t) : Effect s i t := by
  cases i
  case hlt => exact h ▸ .halt
  case ret => exact h ▸ .ret _
  case ldi a imm => obtain ⟨ha, rfl⟩ := h; exact .write rfl ha _
  case not a => obtain ⟨ha, rfl⟩ := h; exact .write rfl ha _
  case prn a => obtain ⟨ha, rfl⟩ := h; exact .emit a _
  case cmp a b => obtain ⟨ha, hb, rfl⟩ := h; exact .compare a b _ _
  case push a => obtain ⟨ha, rfl⟩ := h; exact .push a _
  case pop a => obtain ⟨ha, rfl⟩ := h; exact .pop ha _
  case call a => obtain ⟨ha, -, rfl⟩ := h; exact .call a _ _
  case jmp a => obtain ⟨ha, rfl⟩ := h; exact .jump (a := a) (by simp) _
  case jeq a | jne a =>
    obtain ⟨-, ha, rfl⟩ | ⟨-, rfl⟩ := h
    · exact .jump (a := a) (by simp) _
    · exact .skip (a := a) (by simp)
  case mod a b => obtain ⟨⟨ha, hb, rfl⟩, -⟩ := h; exact .write rfl ha _
  all_goals obtain ⟨ha, hb, rfl⟩ := h; exact .write rfl ha _

/-- Every instruction faults, changing the run state alone, or completes in one of the kinds. -/
theorem exec_effect {i : Instr} {s t : State} (h : exec i s = .next t) : (∃ f, t = s.raise f) ∨ Effect s i t := by
  rcases exec_cases h with ⟨f, -, ht⟩ | ⟨-, hc⟩
  · exact .inl ⟨f, ht⟩
  · exact .inr hc.effect

end Machine
end Sys2Proof
end

section
/-! SUPPORT. Each field of the state after one instruction: who changes it, and to what. -/

namespace Sys2Proof.Machine

/-- Only CMP writes the flags, and it writes a value of spec/10_state.md R18. -/
theorem exec_fl {i : Instr} {s t : State} (h : exec i s = .next t) :
    t.fl = s.fl ∨ (i.opcode = .cmp ∧ t.fl ∈ Flags.reachable) := by
  rcases exec_effect h with ⟨f, rfl⟩ | he
  · exact .inl rfl
  · cases he with
    | compare a b x y => exact .inr ⟨rfl, compareFlags_reachable x y⟩
    | _ => exact .inl rfl

/-- Only PRN outputs, one byte. -/
theorem exec_out {i : Instr} {s t : State} (h : exec i s = .next t) :
    t.out = s.out ∨ (i.opcode = .prn ∧ ∃ v, t.out = s.out ++ [v]) := by
  rcases exec_effect h with ⟨f, rfl⟩ | he
  · exact .inl rfl
  · cases he with
    | emit a v => exact .inr ⟨rfl, v, rfl⟩
    | _ => exact .inl rfl

/-- Only PUSH and CALL write memory, and only the cell below the stack pointer. -/
theorem exec_mem {i : Instr} {s t : State} (h : exec i s = .next t) :
    t.mem = s.mem ∨
      ((i.opcode = .push ∨ i.opcode = .call) ∧ ∃ v, t.mem = s.mem.write (s.sp - 1).toNat v) := by
  rcases exec_effect h with ⟨f, rfl⟩ | he
  · exact .inl rfl
  · cases he with
    | push a v => exact .inr ⟨.inl rfl, v, rfl⟩
    | call a v w => exact .inr ⟨.inr rfl, v, rfl⟩
    | _ => exact .inl rfl

/-- A completed instruction keeps the run state, but for HLT. -/
theorem Completes.rs {i : Instr} {s t : State} (h : Completes i s t) :
    t.rs = s.rs ∨ (i = .hlt ∧ t.rs = .halted .hlt) := by
  cases h.effect with
  | halt => exact .inr ⟨rfl, rfl⟩
  | _ => exact .inl rfl

/-- The run state changes only by HLT and by a fault. -/
theorem exec_rs {i : Instr} {s t : State} (h : exec i s = .next t) :
    t.rs = s.rs ∨ (i = .hlt ∧ t.rs = .halted .hlt) ∨ ∃ f, t.rs = .faulted f := by
  rcases exec_cases h with ⟨f, -, rfl⟩ | ⟨-, hc⟩
  · exact .inr (.inr ⟨f, rfl⟩)
  · exact hc.rs.imp_right .inl

/-- The pc stays (a fault), advances by the instruction's length, or becomes a byte. -/
theorem exec_pc {i : Instr} {s t : State} (h : exec i s = .next t) :
    t.pc = s.pc ∨ t.pc = s.pc + BitVec.ofNat 9 i.length ∨ ∃ v : Byte, t.pc = v.setWidth 9 := by
  rcases exec_effect h with ⟨f, rfl⟩ | he
  · exact .inl rfl
  · cases he with
    | call a v w | ret w | jump hi w => exact .inr (.inr ⟨w, rfl⟩)
    | skip hi =>
      simp only [List.mem_cons, List.not_mem_nil, or_false] at hi
      rcases hi with rfl | rfl <;> exact .inr (.inl rfl)
    | _ => exact .inr (.inl rfl)

/-- A register that is no destination keeps its value. -/
theorem exec_reg {i : Instr} {s t : State} (h : exec i s = .next t) {r : RegIdx}
    (hr : ∀ d ∈ i.destinations, r.val ≠ d.toNat) : t.reg r = s.reg r := by
  have ne_sp (hd : (7 : Byte) ∈ i.destinations) : r ≠ Config.spIndex := fun e => hr 7 hd (congrArg Fin.val e)
  rcases exec_effect h with ⟨f, rfl⟩ | he
  · rfl
  · cases he with
    | write hi ha v => exact State.setReg_reg_ne s v fun e => hr _ (by simp [hi]) (congrArg Fin.val e)
    | push | call | ret => exact State.setReg_reg_ne s _ (ne_sp (by simp [Instr.destinations]))
    | pop ha v =>
      exact (State.setReg_reg_ne _ _ (ne_sp (by simp [Instr.destinations]))).trans
        (State.setReg_reg_ne s v fun e => hr _ (by simp [Instr.destinations]) (congrArg Fin.val e))
    | _ => rfl

end Sys2Proof.Machine
end

section
/-! SUPPORT. The invariants of a step: the state invariants (spec/10_state.md R28) and the truth of the stop reason (R21). -/

namespace Sys2Proof.Machine

/-- A fetched instruction lies in memory whole, its opcode at the pc. -/
theorem fetch_instr {s : State} {i : Instr} (h : fetch s = .instr i) :
    s.pc.toNat + i.length ≤ 256 ∧ lookup (s.mem.read s.pc.toNat) = some i.opcode := by
  obtain ⟨i', h', hlen, hop, -⟩ | ⟨h', -⟩ | ⟨o, h', -⟩ | ⟨h', -⟩ := fetch_cases s
  · obtain rfl : i = i' := by injection h.symm.trans h'
    exact ⟨hlen, hop⟩
  all_goals cases h.symm.trans h'

/-- A cycle of a running engine executes the instruction whose opcode lies at the pc and whose bytes all lie in memory; any
other cycle changes the run state at most. -/
theorem step_exec_or_rs {s t : State} (h : step s = .next t) :
    (s.rs = .running ∧ ∃ i, exec i s = .next t ∧ lookup (s.mem.read s.pc.toNat) = some i.opcode ∧
        s.pc.toNat + i.length ≤ 256) ∨
      ∃ r, t = { s with rs := r } := by
  rcases step_cases h with ⟨-, rfl⟩ | ⟨hr, i, hf, he⟩ | ⟨-, b, -, rfl⟩ | ⟨-, f, -, rfl⟩
  · exact .inr ⟨t.rs, rfl⟩
  · obtain ⟨hlen, hop⟩ := fetch_instr hf
    exact .inl ⟨hr, i, he, hop, hlen⟩
  · exact .inr ⟨_, rfl⟩
  · exact .inr ⟨_, rfl⟩

/-- Within memory the advance does not wrap. -/
theorem advance_toNat {p : PcWord} {n : Nat} (h : p.toNat + n ≤ 256) : (p + BitVec.ofNat 9 n).toNat = p.toNat + n := by
  rw [BitVec.toNat_add, BitVec.toNat_ofNat]; omega

/-- An instruction whose bytes all lie in memory leaves the pc at most 256. -/
theorem exec_pc_le {i : Instr} {s t : State} (h : exec i s = .next t) (hlen : s.pc.toNat + i.length ≤ 256) :
    t.pc.toNat ≤ 256 := by
  rcases exec_pc h with hp | hp | ⟨v, hp⟩
  · rw [hp]; omega
  · rw [hp, advance_toNat hlen]; exact hlen
  · rw [hp, BitVec.toNat_setWidth]; have := byte_lt v; omega

/-- An instruction whose bytes all lie in memory keeps the state invariants. -/
theorem exec_keeps_inv {i : Instr} {s t : State} (hs : s.Inv) (h : exec i s = .next t)
    (hlen : s.pc.toNat + i.length ≤ 256) : t.Inv := by
  obtain ⟨hm, -, hf⟩ := hs
  refine ⟨?_, exec_pc_le h hlen, ?_⟩
  · rcases exec_mem h with e | ⟨-, v, e⟩
    · rw [e]; exact hm
    · rw [e]; exact Memory.wf_write v (byte_lt _) hm
  · rcases exec_fl h with e | ⟨-, hr⟩
    · rw [e]; exact hf
    · exact hr

/-- Settles O58: the run state is no part of the invariants, and every executed instruction keeps them. -/
theorem stepKeepsTheStateInvariants : Obligations.StepKeepsTheStateInvariants := by
  intro s t hs h
  rcases step_exec_or_rs h with ⟨-, i, he, -, hlen⟩ | ⟨r, rfl⟩
  · exact exec_keeps_inv hs he hlen
  · exact hs

/-- The first bad register is above 7. -/
theorem firstBadRegister_gt {s : State} {i : Instr} {idx : Byte} (h : s.firstBadRegister i = some idx) : 7 < idx.toNat := by
  simpa using List.find?_some h

/-- A running engine has no stop reason to account for. -/
theorem stopReason_of_running {s : State} (h : s.rs = .running) : s.StopReason := by
  simp only [State.StopReason, h]

/-- A fault an instruction raises is the truth about the state it faulted in. -/
theorem Raises.stopReason {i : Instr} {s : State} {f : EngineFault} (h : Raises i s f)
    (hlen : s.pc.toNat + i.length ≤ 256) : (s.raise f).StopReason := by
  rcases h with ⟨idx, hi, rfl⟩ | ⟨-, ⟨a, b, hb, rfl, -, h0, rfl⟩ | ⟨a, rfl, -, hp, rfl⟩⟩
  · exact firstBadRegister_gt hi
  · exact ⟨hb, h0⟩
  · have : s.pc.toNat + 2 ≤ 256 := hlen
    exact ⟨by omega, show 254 ≤ s.pc.toNat by omega⟩

/-- A fault of the fetch is the truth about the state it arose in. -/
theorem fetch_fault_stopReason {s : State} {f : EngineFault} (hpc : s.pc.toNat ≤ 256) (h : fetch s = .fault f) :
    (s.raise f).StopReason := by
  obtain ⟨i, h', -⟩ | ⟨h', -⟩ | ⟨o, h', -, -, hn⟩ | ⟨h', hge⟩ := fetch_cases s
  · cases h.symm.trans h'
  · cases h.symm.trans h'
  · obtain rfl : f = _ := by injection h.symm.trans h'
    have := o.nops_le_two
    exact ⟨rfl, show 254 ≤ s.pc.toNat by omega⟩
  · obtain rfl : f = _ := by injection h.symm.trans h'
    exact ⟨by omega, show 254 ≤ s.pc.toNat by omega⟩

/-- An unknown opcode's halt is the truth about the state it arose in. -/
theorem fetch_unknown_stopReason {s : State} {b : Byte} (h : fetch s = .unknown b) :
    (s.halt (.unknownOpcode b)).StopReason := by
  obtain ⟨i, h', -⟩ | ⟨h', hlt, hl⟩ | ⟨o, h', -⟩ | ⟨h', -⟩ := fetch_cases s
  · cases h.symm.trans h'
  · obtain rfl : b = _ := by injection h.symm.trans h'
    exact ⟨hlt, rfl, hl⟩
  · cases h.symm.trans h'
  · cases h.symm.trans h'

/-- The state HLT ends in stands just after HLT's byte. -/
theorem hlt_stopReason {s : State} (hlen : s.pc.toNat + 1 ≤ 256)
    (hop : lookup (s.mem.read s.pc.toNat) = some .hlt) : ((s.halt .hlt).advance 1).StopReason :=
  ⟨s.pc.toNat, advance_toNat hlen, hlen, (lookup_some hop).symm⟩

/-- An instruction fetched from memory by a running engine ends in a state whose stop reason is true. -/
theorem exec_stopReason {i : Instr} {s t : State} (hr : s.rs = .running) (h : exec i s = .next t)
    (hop : lookup (s.mem.read s.pc.toNat) = some i.opcode) (hlen : s.pc.toNat + i.length ≤ 256) : t.StopReason := by
  rcases exec_cases h with ⟨f, hf, rfl⟩ | ⟨-, hc⟩
  · exact hf.stopReason hlen
  · rcases hc.rs with e | ⟨rfl, -⟩
    · exact stopReason_of_running (e.trans hr)
    · obtain rfl : t = _ := hc
      exact hlt_stopReason hlen hop

/-- Settles O59: a stopped engine is unchanged; otherwise the cycle ends in the fetch or in an executed instruction, each of
which accounts for its own stop. -/
theorem stepKeepsTheStopReasonTrue : Obligations.StepKeepsTheStopReasonTrue := by
  intro s t hs hsr h
  obtain ⟨-, hpc, -⟩ := hs
  rcases step_cases h with ⟨-, rfl⟩ | ⟨hr, i, hf, he⟩ | ⟨-, b, hf, rfl⟩ | ⟨-, f, hf, rfl⟩
  · exact hsr
  · obtain ⟨hlen, hop⟩ := fetch_instr hf
    exact exec_stopReason hr he hop hlen
  · exact fetch_unknown_stopReason hf
  · exact fetch_fault_stopReason hpc hf

end Sys2Proof.Machine
end

section
/-! SUPPORT. No instruction and no cycle is refused: each answers a next state (spec/10_state.md R26). -/

namespace Sys2Proof.Machine

/-- The result is a next state. -/
def Answers (x : Result) : Prop := ∃ t, x = .next t

theorem answers_next (t : State) : Answers (.next t) := ⟨t, rfl⟩

/-- A register check answers if what follows it does; so do a read and a write of memory. -/
theorem withReg_answers {b : Byte} {s : State} {k : RegIdx → Result} (h : ∀ r, Answers (k r)) : Answers (withReg b s k) := by
  unfold withReg
  cases regIdx? b with
  | some r => exact h r
  | none => exact answers_next _

theorem withRead_answers {a : Nat} {s : State} {k : Byte → Result} (h : ∀ v, Answers (k v)) : Answers (withRead a s k) := by
  unfold withRead
  cases s.mem.read? a with
  | some v => exact h v
  | none => exact answers_next _

theorem withWrite_answers {a : Nat} {v : Byte} {s u : State} {k : State → Result} (h : ∀ w, Answers (k w)) :
    Answers (withWrite a v s u k) := by
  unfold withWrite
  cases u.mem.write? a v with
  | some m => exact h _
  | none => exact answers_next _

theorem applyAlu_answers (op : AluOp) (ra rb : RegIdx) (opb : Byte) (len : Nat) (s : State) :
    Answers (applyAlu op ra rb opb len s) := by
  unfold applyAlu
  cases alu op (s.reg ra) (s.reg rb) with
  | write v => exact answers_next _
  | flags f => exact answers_next _
  | divisionByZero => exact answers_next _

theorem aluBinary_answers (op : AluOp) (a b : Byte) (s : State) : Answers (aluBinary op a b s) :=
  withReg_answers fun _ => withReg_answers fun _ => applyAlu_answers ..

theorem jumpTo_answers (a : Byte) (s : State) : Answers (jumpTo a s) :=
  withReg_answers fun _ => answers_next _

/-- Every instruction answers a next state. -/
theorem exec_answers (i : Instr) (s : State) : Answers (exec i s) := by
  cases i
  case hlt => exact answers_next _
  case ldi | prn => exact withReg_answers fun _ => answers_next _
  case push => exact withReg_answers fun _ => withWrite_answers fun _ => answers_next _
  case pop => exact withReg_answers fun _ => withRead_answers fun _ => answers_next _
  case call =>
    refine withReg_answers fun _ => ?_
    split
    · exact answers_next _
    · exact withWrite_answers fun _ => answers_next _
  case ret => exact withRead_answers fun _ => answers_next _
  case jmp a => exact jumpTo_answers a s
  case jeq a =>
    simp only [exec, execJeq]
    split
    · exact jumpTo_answers a s
    · exact answers_next _
  case jne a =>
    simp only [exec, execJne]
    split
    · exact answers_next _
    · exact jumpTo_answers a s
  case not => exact withReg_answers fun _ => applyAlu_answers ..
  all_goals exact aluBinary_answers ..

/-- Every cycle answers a next state. -/
theorem step_answers (s : State) : Answers (step s) := by
  unfold step
  cases s.rs with
  | running =>
    cases fetch s with
    | instr i => exact exec_answers i s
    | unknown b => exact answers_next _
    | fault f => exact answers_next _
  | halted c => exact answers_next _
  | faulted f => exact answers_next _

/-- Settles O9: no arm of the execute phase or of the cycle is refused. -/
theorem everyStepAnswersANextState : Obligations.EveryStepAnswersANextState :=
  ⟨exec_answers, step_answers⟩

end Sys2Proof.Machine
end

section
/-! SUPPORT. The frames of the four families of instructions, and who changes the flags, the memory and the output in a
cycle: each read off the field lemmas. -/

namespace Sys2Proof.Machine

/-- An instruction that is not PUSH or CALL keeps the memory. -/
theorem exec_mem_eq {i : Instr} {s t : State} (h : exec i s = .next t) (hp : i.opcode ≠ .push) (hc : i.opcode ≠ .call) :
    t.mem = s.mem :=
  (exec_mem h).resolve_right fun ⟨hi, _⟩ => hi.elim hp hc

/-- An instruction that is not CMP keeps the flags. -/
theorem exec_fl_eq {i : Instr} {s t : State} (h : exec i s = .next t) (hc : i.opcode ≠ .cmp) : t.fl = s.fl :=
  (exec_fl h).resolve_right fun ⟨hi, _⟩ => hc hi

/-- An instruction that is not PRN outputs nothing. -/
theorem exec_out_eq {i : Instr} {s t : State} (h : exec i s = .next t) (hp : i.opcode ≠ .prn) : t.out = s.out :=
  (exec_out h).resolve_right fun ⟨hi, _⟩ => hp hi

/-- An instruction that is not HLT keeps the run state or faults. -/
theorem exec_rs_eq_or_faulted {i : Instr} {s t : State} (h : exec i s = .next t) (hi : i ≠ .hlt) :
    t.rs = s.rs ∨ ∃ f, t.rs = .faulted f :=
  (exec_rs h).imp_right fun h => h.resolve_left fun ⟨e, _⟩ => hi e

/-- An instruction leaves every cell but the one below the stack pointer. -/
theorem exec_read_ne_sp {i : Instr} {s t : State} (h : exec i s = .next t) {x : Nat} (hx : x ≠ (s.sp - 1).toNat) :
    t.mem.read x = s.mem.read x := by
  rcases exec_mem h with e | ⟨-, v, e⟩
  · rw [e]
  · rw [e, Memory.read_write_ne _ _ hx]

/-- An instruction of a list has no opcode but the list's. -/
theorem opcode_ne_of_mem {is : List Instr} {i : Instr} {o : Opcode} (hi : i ∈ is) (ho : o ∉ is.map Instr.opcode) :
    i.opcode ≠ o :=
  ne_of_mem_of_not_mem (List.mem_map_of_mem hi) ho

/-- Settles O40: the ten instructions have one destination, and none of them is CMP, PRN, PUSH, CALL or HLT. -/
theorem registerWritersFrame : Obligations.RegisterWritersFrame := by
  intro a b i s t hi h
  have hd : i.destinations = [a] := by simpa [Instr.destinations] using List.mem_map_of_mem (f := Instr.destinations) hi
  have hmem : t.mem = s.mem :=
    exec_mem_eq h (opcode_ne_of_mem hi (by simp [Instr.opcode])) (opcode_ne_of_mem hi (by simp [Instr.opcode]))
  exact ⟨fun r hr => exec_reg h (by simpa [hd] using hr),
    exec_fl_eq h (opcode_ne_of_mem hi (by simp [Instr.opcode])),
    exec_out_eq h (opcode_ne_of_mem hi (by simp [Instr.opcode])),
    fun x => by rw [hmem],
    exec_rs_eq_or_faulted h (ne_of_mem_of_not_mem hi (by simp))⟩

/-- Settles O41: the six instructions have no destination. -/
theorem noRegisterWrittenFrame : Obligations.NoRegisterWrittenFrame := by
  intro a b i s t hi h
  have hd : i.destinations = [] := by simpa [Instr.destinations] using List.mem_map_of_mem (f := Instr.destinations) hi
  have hmem : t.mem = s.mem :=
    exec_mem_eq h (opcode_ne_of_mem hi (by simp [Instr.opcode])) (opcode_ne_of_mem hi (by simp [Instr.opcode]))
  have only_cmp : ∀ j ∈ [Instr.hlt, .prn a, .cmp a b, .jmp a, .jeq a, .jne a], j.opcode = .cmp → j = .cmp a b := by
    simp [Instr.opcode]
  have only_prn : ∀ j ∈ [Instr.hlt, .prn a, .cmp a b, .jmp a, .jeq a, .jne a], j.opcode = .prn → j = .prn a := by
    simp [Instr.opcode]
  exact ⟨fun r => exec_reg h (by simp [hd]), fun x => by rw [hmem],
    fun hc => exec_fl_eq h fun e => hc (only_cmp i hi e),
    fun hp => exec_out_eq h fun e => hp (only_prn i hi e),
    exec_rs_eq_or_faulted h⟩

/-- Settles O42: PUSH and CALL have the stack pointer as their only destination. -/
theorem storingInstructionsFrame : Obligations.StoringInstructionsFrame := by
  intro a i s t hi h
  have hd : i.destinations = [7] := by simpa [Instr.destinations] using List.mem_map_of_mem (f := Instr.destinations) hi
  exact ⟨fun r hr => exec_reg h (by simpa [hd, Fin.ext_iff] using hr),
    exec_fl_eq h (opcode_ne_of_mem hi (by simp [Instr.opcode])),
    exec_out_eq h (opcode_ne_of_mem hi (by simp [Instr.opcode])),
    fun x hx => exec_read_ne_sp h (by rwa [State.decSp_sp] at hx),
    exec_rs_eq_or_faulted h (ne_of_mem_of_not_mem hi (by simp))⟩

/-- Settles O43: POP's destinations are its operand and the stack pointer, RET's the stack pointer. -/
theorem loadingInstructionsFrame : Obligations.LoadingInstructionsFrame := by
  intro a i s t hi h
  have hmem : t.mem = s.mem :=
    exec_mem_eq h (opcode_ne_of_mem hi (by simp [Instr.opcode])) (opcode_ne_of_mem hi (by simp [Instr.opcode]))
  have hd : ∀ j ∈ [Instr.pop a, .ret], ∀ d ∈ j.destinations, d = 7 ∨ (j = .pop a ∧ d = a) := by
    simp [Instr.destinations]
  refine ⟨fun r hr ha => exec_reg h fun d hdi => ?_,
    exec_fl_eq h (opcode_ne_of_mem hi (by simp [Instr.opcode])),
    exec_out_eq h (opcode_ne_of_mem hi (by simp [Instr.opcode])),
    fun x => by rw [hmem],
    exec_rs_eq_or_faulted h (ne_of_mem_of_not_mem hi (by simp))⟩
  rcases hd i hi d hdi with rfl | ⟨hi, rfl⟩
  · exact fun e => hr (Fin.ext e)
  · exact ha hi

/-- Settles O44: a cycle that is no executed instruction keeps the flags, and of the instructions only CMP writes them. -/
theorem onlyCmpWritesFlags : Obligations.OnlyCmpWritesFlags := by
  intro s t h hne
  rcases step_exec_or_rs h with ⟨hr, i, he, hop, -⟩ | ⟨r, rfl⟩
  · obtain ⟨hi, -⟩ := (exec_fl he).resolve_left hne
    exact ⟨hr, hi ▸ hop⟩
  · exact absurd rfl hne

/-- The cell below the stack pointer, as an unbounded number (decision D9). -/
theorem sp_sub_one_toNat (s : State) : (s.sp - 1).toNat = ((s.reg 7).toNat + 255) % 256 := by
  rw [BitVec.toNat_sub, Nat.add_comm]; rfl

/-- Settles O46: of the executed instructions only PUSH and CALL write memory, at the decremented stack pointer. -/
theorem onlyPushAndCallWriteMemory : Obligations.OnlyPushAndCallWriteMemory := by
  intro s t h hne
  rcases step_exec_or_rs h with ⟨hr, i, he, hop, -⟩ | ⟨r, rfl⟩
  · obtain ⟨hi, -⟩ := (exec_mem he).resolve_left hne
    exact ⟨hr, by rwa [hop, Option.some_inj, Option.some_inj], fun x hx => exec_read_ne_sp he (by rwa [sp_sub_one_toNat])⟩
  · exact absurd rfl hne

/-- Settles O47: of the executed instructions only PRN outputs. -/
theorem outputOnlyGrowsByPrn : Obligations.OutputOnlyGrowsByPrn := by
  intro s t h
  rcases step_exec_or_rs h with ⟨hr, i, he, hop, -⟩ | ⟨r, rfl⟩
  · exact (exec_out he).imp_right fun ⟨hi, hv⟩ => ⟨hr, hi ▸ hop, hv⟩
  · exact .inl rfl

end Sys2Proof.Machine
end

section
/-! SUPPORT. The flags as an input: two runs from states that differ in the flags alone (spec/10_state.md R17). -/

namespace Sys2Proof.Machine

/-- The next states of two results differ at most in the flags. -/
def SameButFlags (x y : Result) : Prop :=
  ∀ t t', x = .next t → y = .next t' → { t' with fl := t.fl } = t

theorem sameButFlags_next {t t' : State} (h : { t' with fl := t.fl } = t) : SameButFlags (.next t) (.next t') := by
  intro u u' hu hu'
  rw [next_inj hu, next_inj hu']
  exact h

/-- A register check does not read the flags. -/
theorem withReg_sameButFlags {b : Byte} {s : State} {f : Flags} {k k' : RegIdx → Result}
    (h : ∀ r, SameButFlags (k r) (k' r)) : SameButFlags (withReg b s k) (withReg b (s.setFlags f) k') := by
  unfold withReg
  cases regIdx? b with
  | some r => exact h r
  | none => exact sameButFlags_next rfl

/-- A choice both runs make alike. -/
theorem ite_sameButFlags {p q : Prop} [Decidable p] [Decidable q] {x y x' y' : Result} (hpq : p ↔ q)
    (hx : SameButFlags x x') (hy : SameButFlags y y') :
    SameButFlags (if p then x else y) (if q then x' else y') := by
  by_cases hp : p
  · rw [if_pos hp, if_pos (hpq.mp hp)]; exact hx
  · rw [if_neg hp, if_neg (mt hpq.mpr hp)]; exact hy

/-- The ALU does not read the flags. -/
theorem applyAlu_sameButFlags (op : AluOp) (ra rb : RegIdx) (opb : Byte) (len : Nat) (s : State) (f : Flags) :
    SameButFlags (applyAlu op ra rb opb len s) (applyAlu op ra rb opb len (s.setFlags f)) := by
  simp only [applyAlu, State.setFlags_reg]
  cases alu op (s.reg ra) (s.reg rb) with
  | write v => exact sameButFlags_next rfl
  | flags g => exact sameButFlags_next rfl
  | divisionByZero => exact sameButFlags_next rfl

theorem aluBinary_sameButFlags (op : AluOp) (a b : Byte) (s : State) (f : Flags) :
    SameButFlags (aluBinary op a b s) (aluBinary op a b (s.setFlags f)) :=
  withReg_sameButFlags fun _ => withReg_sameButFlags fun _ => applyAlu_sameButFlags _ _ _ _ _ s f

theorem jumpTo_sameButFlags (a : Byte) (s : State) (f : Flags) : SameButFlags (jumpTo a s) (jumpTo a (s.setFlags f)) :=
  withReg_sameButFlags fun _ => sameButFlags_next rfl

/-- An instruction does the same whatever the flags are, JEQ and JNE whatever `less` and `greater` are. -/
theorem exec_sameButFlags (i : Instr) (s : State) (f : Flags) (hj : (∃ a, i = .jeq a ∨ i = .jne a) → f.equal = s.fl.equal) :
    SameButFlags (exec i s) (exec i (s.setFlags f)) := by
  cases i
  case hlt => exact sameButFlags_next rfl
  case ldi | prn => exact withReg_sameButFlags fun _ => sameButFlags_next rfl
  case push =>
    refine withReg_sameButFlags fun _ => ?_
    rw [withWrite_byte, withWrite_byte]
    exact sameButFlags_next rfl
  case pop =>
    refine withReg_sameButFlags fun _ => ?_
    rw [withRead_byte, withRead_byte]
    exact sameButFlags_next rfl
  case call =>
    refine withReg_sameButFlags fun _ => ?_
    rw [withWrite_byte, withWrite_byte]
    exact ite_sameButFlags .rfl (sameButFlags_next rfl) (sameButFlags_next rfl)
  case ret =>
    simp only [exec, execRet_eq]
    exact sameButFlags_next rfl
  case jmp a => exact jumpTo_sameButFlags a s f
  case jeq a =>
    exact ite_sameButFlags (Bool.eq_iff_iff.mp (hj ⟨a, .inl rfl⟩).symm) (jumpTo_sameButFlags a s f) (sameButFlags_next rfl)
  case jne a =>
    exact ite_sameButFlags (Bool.eq_iff_iff.mp (hj ⟨a, .inr rfl⟩).symm) (sameButFlags_next rfl) (jumpTo_sameButFlags a s f)
  case not => exact withReg_sameButFlags fun _ => applyAlu_sameButFlags _ _ _ _ _ s f
  all_goals exact aluBinary_sameButFlags _ _ _ s f

/-- Settles O45: no combinator of the meanings reads the flags, and the two that test them test `equal` alone. -/
theorem flagsReadOnlyByJeqJne : Obligations.FlagsReadOnlyByJeqJne :=
  fun i s t t' f hj h h' => exec_sameButFlags i s f hj t t' h h'

end Sys2Proof.Machine
end

section
/-! SUPPORT. Register access, and the state after reset and after boot. -/

namespace Sys2Proof.Machine

/-- The registers a well-formed instruction uses exist. -/
theorem firstBadRegister_of_wellFormed {i : Instr} (s : State) (h : i.wellFormed = true) : s.firstBadRegister i = none := by
  cases i
  case hlt | ret => rfl
  case ldi | prn | push | pop | call | jmp | not => exact find_bad_none_one (of_decide_eq_true h)
  case jeq =>
    simp only [State.firstBadRegister, State.registersUsed]
    split
    · exact find_bad_none_one (of_decide_eq_true h)
    · rfl
  case jne =>
    simp only [State.firstBadRegister, State.registersUsed]
    split
    · rfl
    · exact find_bad_none_one (of_decide_eq_true h)
  all_goals
    obtain ⟨ha, hb⟩ := (Bool.and_eq_true _ _).mp h
    exact find_bad_none_two (of_decide_eq_true ha) (of_decide_eq_true hb)

/-- An instruction with no bad register does not raise InvalidRegister. -/
theorem exec_rs_ne_invalidRegister {i : Instr} {s t : State} (hb : s.firstBadRegister i = none) (hr : s.rs = .running)
    (h : exec i s = .next t) (idx : Byte) : t.rs ≠ .faulted (.invalidRegister idx) := by
  rcases exec_cases h with ⟨f, hf, rfl⟩ | ⟨-, hc⟩
  · rcases hf with ⟨idx', hi, -⟩ | ⟨-, ⟨a, b, hb, -, -, -, rfl⟩ | ⟨a, -, -, -, rfl⟩⟩
    · cases hb.symm.trans hi
    · simp
    · simp
  · rcases hc.rs with e | ⟨-, e⟩
    · simp [e, hr]
    · simp [e]

/-- Settles O53: a register check answers by its bound, and a well-formed instruction uses no register above 7. -/
theorem registerAccessContract : Obligations.RegisterAccessContract := by
  refine ⟨fun b => ⟨fun h => ?_, regIdx?_of_ge⟩, fun b r h => ?_, fun b s k h => withReg_of_ge h s k, State.setReg_reg,
    fun i s t idx hw hr h => exec_rs_ne_invalidRegister (firstBadRegister_of_wellFormed s hw) hr h idx⟩
  · by_contra hb
    rw [regIdx?_of_lt (show b.toNat < 8 by omega)] at h
    cases h
  · by_cases hb : b.toNat < 8
    · rw [regIdx?_of_lt hb] at h
      injection h with h
      exact congrArg Fin.val h.symm
    · rw [regIdx?_of_ge (by omega)] at h
      cases h

/-- Settles O57: a load leaves everything but memory at its reset value. -/
theorem bootMeetsTheInvariants : Obligations.BootMeetsTheInvariants := by
  have hreset : State.reset.Inv := by decide
  refine ⟨⟨hreset, trivial⟩, fun image s h => ?_⟩
  obtain ⟨hlen, rfl⟩ := boot_some h
  exact ⟨⟨State.load_wf _ hlen, hreset.2⟩, trivial⟩

/-- Settles O54: the reset state is a literal, whose empty memory reads as 0. -/
theorem resetValues : Obligations.ResetValues :=
  ⟨by decide, rfl, rfl, fun _ ha => Memory.read?_of_lt _ ha, rfl, rfl, fun _ => rfl⟩

end Sys2Proof.Machine
end

section
/-! SUPPORT. The flat store (spec/20_memory.md R30), and the fetch read off the bytes at the pc: the operand bytes alone (R70)
or the opcode and the two bytes after it, the source's speculative fetch (R35). -/

namespace Sys2Proof.Machine

/-- Settles O52: inside the address space a write is `Memory.write`, which has the read-after-write laws; outside it the bound
check fails. -/
theorem memoryIsAFlatStore : Obligations.MemoryIsAFlatStore := by
  intro m a v hm
  refine ⟨fun ha => ?_, fun ha => Memory.read?_of_lt m (by omega),
    fun ha => ⟨Memory.read?_of_ge m ha, if_neg (by omega)⟩⟩
  have ha : a < 256 := by omega
  refine ⟨m.write a v, Memory.write?_of_lt m v ha, Memory.wf_write v ha hm, ?_, fun x hx => ?_⟩
  · rw [Memory.read?_of_lt _ ha, Memory.read_write_self a v hm]
  · simp only [Memory.read?, Memory.read_write_ne m v hx]

/-- An opcode byte that is no row's is what the fetch reports. -/
theorem fetch_of_lookup_none {s : State} (hpc : s.pc.toNat < 256) (hl : lookup (s.mem.read s.pc.toNat) = none) :
    fetch s = .unknown (s.mem.read s.pc.toNat) := by
  simp only [fetch, Memory.read?_of_lt _ hpc, hl]

/-- An opcode byte that selects a row leaves the fetch with that row's operands. -/
theorem fetch_of_lookup {s : State} {o : Opcode} (hpc : s.pc.toNat < 256)
    (hl : lookup (s.mem.read s.pc.toNat) = some o) : fetch s = fetchOperands s o.format := by
  simp only [fetch, Memory.read?_of_lt _ hpc, hl]

/-- Settles O13: of the four ends of a fetch, the opcode at the pc leaves the instruction and the operand fault, and the number
of operand bytes tells them apart. -/
theorem operandFetchNearTheTop : Obligations.OperandFetchNearTheTop := by
  intro s o hr hpc hl
  obtain ⟨i, hf, hlen, hop, hops⟩ | ⟨-, -, hn⟩ | ⟨o', hf, -, hl', hn⟩ | ⟨-, hge⟩ := fetch_cases s
  · obtain rfl : o = i.opcode := by injection hl.symm.trans hop
    unfold Instr.length at hlen
    refine ⟨fun h => by omega, fun _ => ⟨i, rfl, List.ext_getElem (by simp) fun k hk _ => ?_, step_of_instr hr hf⟩⟩
    simpa using (hops k hk).symm
  · cases hn.symm.trans hl
  · obtain rfl : o = o' := by injection hl.symm.trans hl'
    exact ⟨fun _ => step_of_fault hr hf, fun h => by omega⟩
  · omega

/-- A byte that selects no row is refused by name (R58). -/
theorem decode_cons_of_lookup_none {b : Byte} (h : lookup b = none) (bs : List Byte) :
    decode (b :: bs) = .error (.unknownOpcode b) := by
  simp only [decode, decodeWith, show lookupWith opMap b = none from h]

/-- What the first three phases come to at the address `p`, by what the bytes there decode to. -/
def Fetched.ofDecode (p : Nat) : Except DecodeError (Instr × List Byte) → Fetched
  | .ok (i, _) => .instr i
  | .error .noOpcode => .fault (.addressOutOfRange p)
  | .error (.unknownOpcode b) => .unknown b
  | .error (.missingOperand k) => .fault (.addressOutOfRange (p + k))

/-- The bytes of the two cells after the opcode, as many as there are. -/
def State.operandBytes (s : State) : List Byte :=
  (s.mem.read? (s.pc.toNat + 1)).toList ++ (s.mem.read? (s.pc.toNat + 2)).toList

/-- The source's fetch at a pc in memory: the opcode, then the two bytes after it. -/
theorem State.codeBytes_of_lt {s : State} (hpc : s.pc.toNat < 256) :
    s.codeBytes = s.mem.read s.pc.toNat :: s.operandBytes := by
  simp [State.codeBytes, State.operandBytes, List.filterMap_eq_flatMap_toList, List.range_succ, hpc]

/-- The source's fetch at a pc above memory finds no byte. -/
theorem State.codeBytes_of_ge {s : State} (hpc : 256 ≤ s.pc.toNat) : s.codeBytes = [] :=
  List.filterMap_eq_nil_iff.mpr fun _ _ => Memory.read?_of_ge _ (by omega)

/-- The cells after the opcode end where memory does: both exist, the first alone, or neither. -/
theorem State.operandBytes_cases (s : State) :
    (s.mem.read? (s.pc.toNat + 1) = none ∧ s.operandBytes = []) ∨
      ∃ a, s.mem.read? (s.pc.toNat + 1) = some a ∧
        ((s.mem.read? (s.pc.toNat + 2) = none ∧ s.operandBytes = [a]) ∨
          ∃ b, s.mem.read? (s.pc.toNat + 2) = some b ∧ s.operandBytes = [a, b]) := by
  unfold State.operandBytes
  by_cases h1 : s.pc.toNat + 1 < 256
  · refine .inr ⟨_, Memory.read?_of_lt _ h1, ?_⟩
    cases h2 : s.mem.read? (s.pc.toNat + 2) with
    | none => exact .inl ⟨rfl, by simp [h1]⟩
    | some b => exact .inr ⟨b, rfl, by simp [h1]⟩
  · have h1 : 256 ≤ s.pc.toNat + 1 := by omega
    have h2 : 256 ≤ s.pc.toNat + 2 := by omega
    exact .inl ⟨Memory.read?_of_ge _ h1, by simp [h1, h2]⟩

/-- The operands of a 3-byte instruction, fetched one by one or taken from the bytes after the opcode. -/
theorem fetchTwo_eq_ofDecode (s : State) {f : Format} {mk : Byte → Byte → Instr} (hf : f = .op2rr mk ∨ f = .op2ri mk) :
    fetchOperands.fetchTwo s mk = .ofDecode s.pc.toNat (takeOperands f s.operandBytes) := by
  unfold fetchOperands.fetchTwo
  obtain ⟨h1, hb⟩ | ⟨a, h1, ⟨h2, hb⟩ | ⟨b, h2, hb⟩⟩ := s.operandBytes_cases
  · rw [h1, hb]; rcases hf with rfl | rfl <;> rfl
  · rw [h1, h2, hb]; rcases hf with rfl | rfl <;> rfl
  · rw [h1, h2, hb]; rcases hf with rfl | rfl <;> rfl

/-- Fetching only the operand bytes a format has is assembling them from the bytes after the opcode. -/
theorem fetchOperands_eq_ofDecode (s : State) (f : Format) :
    fetchOperands s f = .ofDecode s.pc.toNat (takeOperands f s.operandBytes) := by
  cases f with
  | op0 i => rfl
  | op1r mk =>
    unfold fetchOperands
    obtain ⟨h1, hb⟩ | ⟨a, h1, ⟨-, hb⟩ | ⟨b, -, hb⟩⟩ := s.operandBytes_cases
    all_goals rw [h1, hb]; rfl
  | op2rr mk => exact fetchTwo_eq_ofDecode s (.inl rfl)
  | op2ri mk => exact fetchTwo_eq_ofDecode s (.inr rfl)

/-- The fetch answers by what the bytes at the pc decode to. -/
theorem fetch_eq_ofDecode (s : State) : fetch s = .ofDecode s.pc.toNat (decode s.codeBytes) := by
  by_cases hpc : s.pc.toNat < 256
  · rw [State.codeBytes_of_lt hpc]
    cases hl : lookup (s.mem.read s.pc.toNat) with
    | none => rw [fetch_of_lookup_none hpc hl, decode_cons_of_lookup_none hl]; rfl
    | some o =>
      calc fetch s = fetchOperands s o.format := fetch_of_lookup hpc hl
        _ = .ofDecode s.pc.toNat (takeOperands o.format s.operandBytes) := fetchOperands_eq_ofDecode s o.format
        _ = .ofDecode s.pc.toNat (decode (s.mem.read s.pc.toNat :: s.operandBytes)) :=
          congrArg _ (decodeWith_cons_of_lookupWith hl _).symm
  · have hpc : 256 ≤ s.pc.toNat := by omega
    rw [State.codeBytes_of_ge hpc, fetch, Memory.read?_of_ge _ hpc]; rfl

/-- Settles O8: an operand byte the format does not have is looked at by neither reading. -/
theorem speculativeFetchIsUnobservable : Obligations.SpeculativeFetchIsUnobservable :=
  fetch_eq_ofDecode

end Sys2Proof.Machine
end

section
/-! SUPPORT. Self-modifying code (spec/20_memory.md R40): two cycles, a PUSH over the next opcode and the fetch of the stored
byte. -/

namespace Sys2Proof.Machine

/-- The operand byte that is a register's number names that register. -/
theorem withReg_ofNat (r : RegIdx) (s : State) (k : RegIdx → Result) : withReg (BitVec.ofNat 8 r.val) s k = k r := by
  have hv : (BitVec.ofNat 8 r.val).toNat = r.val := by rw [BitVec.toNat_ofNat]; omega
  rw [withReg_of_lt (show (BitVec.ofNat 8 r.val).toNat < 8 by omega)]
  exact congrArg k (Fin.ext hv)

/-- PUSH with a valid operand completes. -/
theorem execPush_ofNat (r : RegIdx) (s : State) :
    execPush (BitVec.ofNat 8 r.val) s =
      .next ((s.decSp.setMem (s.mem.write (s.sp - 1).toNat (s.decSp.reg r))).advance 2) := by
  rw [execPush, withReg_ofNat, withWrite_byte, State.decSp_sp, State.decSp_mem]

/-- PUSH's bytes at the pc are fetched as PUSH. -/
theorem fetch_push {s : State} (hpc : s.pc.toNat + 2 ≤ 256) (hop : s.mem.read s.pc.toNat = 0x45) :
    fetch s = .instr (.push (s.mem.read (s.pc.toNat + 1))) := by
  have hl : lookup (s.mem.read s.pc.toNat) = some .push := by rw [hop]; exact lookup_opMap .push
  rw [fetch_of_lookup (by omega) hl]
  simp only [Opcode.format, fetchOperands, Memory.read?_of_lt _ (show s.pc.toNat + 1 < 256 by omega)]

/-- HLT's byte at the pc of a running engine halts it (R76). -/
theorem step_hlt {s : State} (hr : s.rs = .running) (hpc : s.pc.toNat < 256) (hop : s.mem.read s.pc.toNat = 0x01) :
    step s = .next ((s.halt .hlt).advance 1) := by
  have hl : lookup (s.mem.read s.pc.toNat) = some .hlt := by rw [hop]; exact lookup_opMap .hlt
  exact step_of_instr hr (fetch_of_lookup hpc hl)

/-- Two cycles, the first of which answers `t`, are a cycle of `t`. -/
theorem runFor_two {s t u : State} (h : step s = .next t) (h' : step t = .next u) : runFor 2 s = .next u := by
  simp only [runFor, h, h']

/-- A PUSH over the next opcode leaves the engine running at the byte it stored. -/
theorem step_push_over_next {s : State} {r : RegIdx} (hs : s.Inv) (hr : s.rs = .running) (hpc : s.pc.toNat ≤ 253)
    (hr7 : r ≠ 7) (hop : s.mem.read s.pc.toNat = 0x45) (hopa : s.mem.read (s.pc.toNat + 1) = BitVec.ofNat 8 r.val)
    (hsp : ((s.reg 7).toNat + 255) % 256 = s.pc.toNat + 2) :
    ∃ t, step s = .next t ∧ t.rs = .running ∧ t.pc.toNat = s.pc.toNat + 2 ∧ t.mem.read t.pc.toNat = s.reg r := by
  obtain ⟨hm, -, -⟩ := hs
  have hf : fetch s = .instr (.push (BitVec.ofNat 8 r.val)) := hopa ▸ fetch_push (by omega) hop
  have hpc' : (s.pc + BitVec.ofNat 9 2).toNat = s.pc.toNat + 2 := advance_toNat (by omega)
  refine ⟨_, (step_of_instr hr hf).trans (execPush_ofNat r s), hr, hpc', ?_⟩
  simp only [State.advance_mem, State.advance_pc, State.setMem_mem, State.setMem_pc, State.decSp_pc]
  rw [hpc', sp_sub_one_toNat, hsp, Memory.read_write_self _ _ hm]
  exact State.setReg_reg_ne s _ hr7

/-- Settles O51: the second cycle fetches the cell the first one wrote. -/
theorem storeIsSeenByTheNextFetch : Obligations.StoreIsSeenByTheNextFetch := by
  intro s r hs hr hpc hr7 hop hopa hsp
  obtain ⟨t, ht, htr, htpc, hread⟩ := step_push_over_next hs hr hpc hr7 hop hopa hsp
  obtain ⟨u, hu⟩ := step_answers t
  have hlt : t.pc.toNat < 256 := by omega
  refine ⟨u, runFor_two ht hu, fun hv => ?_, fun hv => ?_⟩
  · obtain rfl := next_inj ((step_hlt htr hlt (hread.trans hv)).symm.trans hu)
    exact ⟨rfl, (advance_toNat (p := t.pc) hlt).trans (by omega)⟩
  · rw [← hread] at hv ⊢
    obtain rfl := next_inj ((step_of_unknown htr (fetch_of_lookup_none hlt hv)).symm.trans hu)
    exact ⟨rfl, htpc⟩

end Sys2Proof.Machine
end

section
/-! SUPPORT. The words of the instruction set (spec/30_encoding.md R50, R57, R58): what the decoder accepts, what it refuses,
and how an instruction is laid out. -/

namespace Sys2Proof

/-- A row is selected by its own opcode byte and by no other (R57). -/
theorem lookup_eq_some_iff {b : Byte} {o : Opcode} : lookup b = some o ↔ opMap o = b :=
  ⟨lookup_some, fun h => h ▸ lookup_opMap o⟩

/-- A byte that is no row's opcode is refused by name (R58). -/
theorem decode_cons_of_opMap_ne {b : Byte} (h : ∀ o, opMap o ≠ b) (bs : List Byte) :
    decode (b :: bs) = .error (.unknownOpcode b) :=
  Machine.decode_cons_of_lookup_none (lookupWith_none.mpr h) bs

/-- An instruction's encoding under the map of R56 decodes to it. -/
theorem decode_encode_append (i : Instr) (rest : List Byte) : decode (encode i ++ rest) = .ok (i, rest) :=
  decodeOfEncode opMap (fun _ _ => opMap_injective) i rest

/-- Settles O4: bytes are accepted only when the first selects a row, which makes it that row's opcode, and the row's format
takes its operand bytes from the others. -/
theorem encodeOfDecode : Obligations.EncodeOfDecode := by
  intro m bs rest i h
  cases bs with
  | nil => cases h
  | cons b bs =>
    cases hl : lookupWith m b with
    | none => simp [decodeWith, hl] at h
    | some o =>
      rw [decodeWith_cons_of_lookupWith hl] at h
      obtain ⟨rfl, rfl⟩ := takeOperands_ok h
      rw [encodeWith, lookupWith_some hl, List.cons_append]

/-- Settles O5: the lookup compares whole bytes, and the values are distinct. -/
theorem opcodeByteMatchesAtMostOneRow : Obligations.OpcodeByteMatchesAtMostOneRow :=
  ⟨fun _ _ => opMap_injective, fun _ _ => lookup_eq_some_iff, fun _ rest hb => decode_cons_of_opMap_ne hb rest,
    fun _ _ rest ho => decodeWith_cons_of_lookupWith (lookup_eq_some_iff.mpr ho) rest⟩

/-- Settles O1: each word written out is its instruction's encoding, and encodings decode. -/
theorem writtenOutWordsDecode : Obligations.WrittenOutWordsDecode := fun a b rest =>
  have dec (i : Instr) := decode_encode_append i rest
  ⟨dec .hlt, dec (.ldi a b), dec (.prn a), dec (.add a b), dec (.mul a b), dec (.cmp a b), dec (.push a), dec (.pop a),
    dec (.call a), dec .ret, dec (.jmp a), dec (.jeq a), dec (.jne a), dec (.and a b), dec (.or a b), dec (.xor a b),
    dec (.not a), dec (.shl a b), dec (.shr a b), dec (.mod a b)⟩

/-- Settles O2: the opcode byte is first by definition of the encoding, and each row lists its operand bytes in order. -/
theorem formatsLayOutOpcodeThenOperands : Obligations.FormatsLayOutOpcodeThenOperands := by
  intro m a b
  refine ⟨fun i hi => ?_, fun i hi => ?_, fun i hi => ?_, rfl⟩
  all_goals fin_cases hi <;> rfl

/-- The table of R56 has no row twice. -/
theorem Opcode.all_nodup : Opcode.all.Nodup := by simp [Opcode.all]

/-- The bytes that select a row are the 20 opcode values, each once. -/
theorem recognised_perm :
    ((List.range 256).filter fun n => (lookup (BitVec.ofNat 8 n)).isSome).Perm
      (Opcode.all.map fun o => (opMap o).toNat) := by
  have hvalues : (Opcode.all.map fun o => (opMap o).toNat).Nodup :=
    Opcode.all_nodup.map fun _ _ h => opMap_injective (BitVec.eq_of_toNat_eq h)
  refine (List.perm_ext_iff_of_nodup (List.nodup_range.filter _) hvalues).mpr fun n => ?_
  simp only [List.mem_filter, List.mem_range, Option.isSome_iff_exists, lookup_eq_some_iff, List.mem_map, Opcode.mem_all,
    true_and]
  constructor
  · rintro ⟨hn, o, ho⟩
    exact ⟨o, by rw [ho, BitVec.toNat_ofNat, Nat.mod_eq_of_lt hn]⟩
  · rintro ⟨o, rfl⟩
    exact ⟨(opMap o).isLt, o, by simp⟩

/-- Of the 256 bytes, the ones that select no row are those left by the 20 values. -/
theorem unrecognised_count :
    ((List.range 256).filter fun n => (lookup (BitVec.ofNat 8 n)).isNone).length = 236 := by
  have hsome : ((List.range 256).filter fun n => (lookup (BitVec.ofNat 8 n)).isSome).length = 20 :=
    recognised_perm.length_eq
  have hsum := (List.range 256).length_eq_length_filter_add fun n => (lookup (BitVec.ofNat 8 n)).isSome
  simp only [hsome, List.length_range, Option.not_isSome] at hsum
  omega

/-- Settles O6: the literal list is the opcode map read along the table's rows. -/
theorem otherOpcodeBytesAreUnrecognised : Obligations.OtherOpcodeBytesAreUnrecognised := by
  refine ⟨fun b rest hb => decode_cons_of_opMap_ne (fun o ho => hb ?_) rest, unrecognised_count⟩
  have hmem : opMap o ∈ Opcode.all.map opMap := List.mem_map_of_mem o.mem_all
  exact ho ▸ hmem

end Sys2Proof
end

section
/-! SUPPORT. The cycle of a running engine (spec/40_cycle_and_halt.md R70, R72, R73): which instruction it executes, how it
ends, and where it leaves the pc. -/

namespace Sys2Proof

/-- The five control transfers, which set the pc to a byte (spec/44_control_transfer.md R115). -/
def Opcode.isTransfer : Opcode → Bool
  | .call | .ret | .jmp | .jeq | .jne => true
  | _ => false

namespace Machine

/-- The instruction the bytes at the pc decode to is the one fetched. -/
theorem fetch_of_decode {s : State} {i : Instr} {rest : List Byte} (h : decode s.codeBytes = .ok (i, rest)) :
    fetch s = .instr i := by
  rw [fetch_eq_ofDecode, h]; rfl

/-- Settles O7: a fetch answers the decoded instruction, and the cycle then is its execute phase. -/
theorem stepRunsTheDecodedInstruction : Obligations.StepRunsTheDecodedInstruction :=
  fun _ _ _ hr hd => step_of_instr hr (fetch_of_decode hd)

/-- No opcode is fetched above address 255 (R72). -/
theorem fetch_of_pc_ge {s : State} (hpc : 256 ≤ s.pc.toNat) : fetch s = .fault (.addressOutOfRange s.pc.toNat) := by
  simp only [fetch, Memory.read?_of_ge _ hpc]

/-- Settles O11: the fetch faults, and a fetch fault is raised as it is. -/
theorem opcodeFetchAbove255Faults : Obligations.OpcodeFetchAbove255Faults :=
  fun _ hr hpc => step_of_fault hr (fetch_of_pc_ge hpc)

/-- Settles O20: HLT has no operand to check, so its one next state is its definition; from 255 the advance stays within the
pc's 9 bits. -/
theorem hltHaltsAndAdvances : Obligations.HltHaltsAndAdvances := by
  refine ⟨rfl, fun s => ⟨rfl, fun hpc t h => ?_⟩⟩
  obtain rfl : t = (s.halt .hlt).advance 1 := next_inj h
  calc (s.pc + BitVec.ofNat 9 1).toNat = s.pc.toNat + 1 := advance_toNat (by omega)
    _ = 256 := by rw [hpc]

/-- A completed instruction of a running engine ends in no fault and no unknown opcode. -/
theorem Completes.rs_of_running {i : Instr} {s t : State} (h : Completes i s t) (hr : s.rs = .running) :
    t.rs = .running ∨ t.rs = .halted .hlt :=
  h.rs.imp (·.trans hr) (·.2)

/-- How a cycle of a running engine ends: in a fault or an unknown opcode, the run state alone changed, or in a completed
instruction, which leaves the engine running or halted by HLT. -/
theorem step_running_cases {s t : State} (hr : s.rs = .running) (h : step s = .next t) :
    (∃ f, t = s.raise f) ∨ (∃ b, t = s.halt (.unknownOpcode b)) ∨
      ∃ i, fetch s = .instr i ∧ Completes i s t ∧ (t.rs = .running ∨ t.rs = .halted .hlt) := by
  rcases step_cases h with ⟨hn, -⟩ | ⟨-, i, hf, he⟩ | ⟨-, b, -, ht⟩ | ⟨-, f, -, ht⟩
  · exact absurd hr hn
  · rcases exec_cases he with ⟨f, -, ht⟩ | ⟨-, hc⟩
    · exact .inl ⟨f, ht⟩
    · exact .inr (.inr ⟨i, hf, hc, hc.rs_of_running hr⟩)
  · exact .inr (.inl ⟨b, ht⟩)
  · exact .inl ⟨f, ht⟩

/-- A cycle that completes no instruction changes the run state alone (D7, D8). -/
theorem step_eq_of_not_completed {s t : State} (hr : s.rs = .running) (h : step s = .next t) (hrun : t.rs ≠ .running)
    (hhlt : t.rs ≠ .halted .hlt) : t = { s with rs := t.rs } := by
  rcases step_running_cases hr h with ⟨f, rfl⟩ | ⟨b, rfl⟩ | ⟨i, -, -, hrs⟩
  · rfl
  · rfl
  · exact absurd hrs (not_or.mpr ⟨hrun, hhlt⟩)

/-- A fetched instruction whose cycle does not fault completes. -/
theorem step_completes {s t : State} {i : Instr} (hr : s.rs = .running) (hf : fetch s = .instr i) (h : step s = .next t)
    (hnf : ∀ f, t.rs ≠ .faulted f) : Completes i s t := by
  rcases exec_cases ((step_of_instr hr hf).symm.trans h) with ⟨f, -, rfl⟩ | ⟨-, hc⟩
  · exact absurd rfl (hnf f)
  · exact hc

/-- A completed instruction that is no control transfer advances the pc by its length (R73). -/
theorem Completes.pc_of_not_transfer {i : Instr} {s t : State} (h : Completes i s t) (hi : i.opcode.isTransfer = false)
    (hlen : s.pc.toNat + i.length ≤ 256) : t.pc.toNat = s.pc.toNat + i.length := by
  cases h.effect with
  | halt | write | emit | compare | push | pop => exact advance_toNat hlen
  | call | ret => cases hi
  | jump hj | skip hj => fin_cases hj <;> cases hi

/-- A jump sets the pc to its target, zero-extended. -/
theorem jump_pc_toNat (s : State) (v : Byte) : (s.jump v).pc.toNat = v.toNat :=
  BitVec.toNat_setWidth_of_le (by decide)

/-- Where a taken jump to a register leaves the pc. -/
theorem CompletesJump.pc {a : Byte} {s t : State} (h : CompletesJump a s t) (ha : a.toNat < 8) :
    t.pc.toNat = (s.reg ⟨a.toNat, ha⟩).toNat := by
  obtain ⟨-, rfl⟩ := h
  exact jump_pc_toNat ..

/-- Settles O19: a fault and an unknown opcode change the run state alone; a completed instruction leaves the pc where its
kind says, a transfer at its target and any other just after its own bytes. -/
theorem pcUpdatedExactlyOnce : Obligations.PcUpdatedExactlyOnce := by
  intro s t hr h
  have stays (hrun : t.rs ≠ .running) (hhlt : t.rs ≠ .halted .hlt) : t.pc = s.pc :=
    (congrArg State.pc (step_eq_of_not_completed hr h hrun hhlt)).trans rfl
  refine ⟨fun f ht => stays (by simp [ht]) (by simp [ht]), fun b ht => stays (by simp [ht]) (by simp [ht]),
    fun i rest hd hnf => ?_⟩
  have hf : fetch s = .instr i := fetch_of_decode hd
  have hc : Completes i s t := step_completes hr hf h hnf
  obtain ⟨hlen, -⟩ := fetch_instr hf
  cases i
  case call a =>
    obtain ⟨-, -, rfl⟩ := hc
    exact fun ha => jump_pc_toNat ..
  case ret =>
    obtain rfl : t = _ := hc
    exact jump_pc_toNat ..
  case jmp a => exact hc.pc
  case jeq a =>
    obtain ⟨he, hj⟩ | ⟨he, rfl⟩ := hc
    · simp only [he, if_true]; exact hj.pc
    · simp only [he, Bool.false_eq_true, if_false]; exact advance_toNat hlen
  case jne a =>
    obtain ⟨he, hj⟩ | ⟨he, rfl⟩ := hc
    · simp only [he, Bool.false_eq_true, if_false]; exact hj.pc
    · simp only [he, if_true]; exact advance_toNat hlen
  all_goals exact hc.pc_of_not_transfer rfl hlen

end Machine
end Sys2Proof
end

section
/-! SUPPORT. Runs (spec/40_cycle_and_halt.md R75, R77): what a stopped engine does, what a run keeps, and the ways a run
ends. -/

namespace Sys2Proof.Machine

/-- A cycle of a stopped engine changes nothing (R71). -/
theorem step_of_stopped {s : State} (h : s.rs ≠ .running) : step s = .next s := by
  unfold step
  cases hr : s.rs with
  | running => exact absurd hr h
  | halted c => rfl
  | faulted f => rfl

/-- A run's first cycle, then the rest of it. -/
theorem runFor_succ {n : Nat} {s u : State} (h : step s = .next u) : runFor (n + 1) s = runFor n u := by
  simp only [runFor, h]

/-- A run of a stopped engine changes nothing. -/
theorem runFor_of_stopped {s : State} (h : s.rs ≠ .running) (n : Nat) : runFor n s = .next s := by
  induction n with
  | zero => rfl
  | succ n ih => exact (runFor_succ (step_of_stopped h)).trans ih

/-- Settles O10: the transactions that are performed and are no reset load memory or run a stopped engine. -/
theorem terminalStatesAbsorb : Obligations.TerminalStatesAbsorb := by
  intro s hs
  refine ⟨step_of_stopped hs, runFor_of_stopped hs, fun p => ⟨rfl, fun tr d h htr => ?_⟩⟩
  rcases perform_cases h with ⟨rfl, -⟩ | ⟨image, -, -, -, rfl⟩ | ⟨n, -, hrun, -⟩
  · exact absurd rfl htr
  · rfl
  · exact congrArg State.rs (next_inj ((runFor_of_stopped hs n).symm.trans hrun))

/-- What every cycle keeps, every run keeps. -/
theorem runFor_keeps {P : State → Prop} (hstep : ∀ s t, P s → step s = .next t → P t) {n : Nat} {s t : State} (hs : P s)
    (h : runFor n s = .next t) : P t := by
  induction n generalizing s with
  | zero => exact next_inj h ▸ hs
  | succ n ih =>
    obtain ⟨u, hu⟩ := step_answers s
    exact ih (hstep s u hs hu) ((runFor_succ hu).symm.trans h)

/-- A longer run goes on from where the shorter one ends. -/
theorem runFor_add {n : Nat} {s t : State} (h : runFor n s = .next t) (k : Nat) : runFor (n + k) s = runFor k t := by
  induction n generalizing s with
  | zero => rw [Nat.zero_add, next_inj h]
  | succ n ih =>
    obtain ⟨u, hu⟩ := step_answers s
    calc runFor (n + 1 + k) s = runFor (n + k + 1) s := by rw [Nat.add_right_comm]
      _ = runFor (n + k) u := runFor_succ hu
      _ = runFor k t := ih ((runFor_succ hu).symm.trans h)

theorem State.stopped_iff {s : State} : s.stopped = true ↔ s.rs ≠ .running := decide_eq_true_iff

/-- A run from boot meets both invariants at every cycle. -/
theorem inv_and_stopReason_of_boot {image : List Byte} {s t : State} {n : Nat} (hb : boot image = some s)
    (h : runFor n s = .next t) : t.Inv ∧ t.StopReason :=
  runFor_keeps (P := fun s => s.Inv ∧ s.StopReason)
    (fun s t ⟨hi, hr⟩ hst => ⟨stepKeepsTheStateInvariants s t hi hst, stepKeepsTheStopReasonTrue s t hi hr hst⟩)
    (bootMeetsTheInvariants.2 image s hb) h

/-- The engine is running or in one of the three ends (R77). -/
theorem State.running_or_ended (s : State) :
    s.stopped = false ∨ s.Successful ∨ (∃ b, s.CleanStop b) ∨ ∃ f, s.ErrorStop f := by
  cases hr : s.rs with
  | running => exact .inl (by simp [State.stopped, hr])
  | halted c =>
    cases c with
    | hlt => exact .inr (.inl hr)
    | unknownOpcode b => exact .inr (.inr (.inl ⟨b, hr⟩))
  | faulted f => exact .inr (.inr (.inr ⟨f, hr⟩))

/-! The diagnostic of each end: the unknown opcode's byte, and none for the others (spec/10_state.md R25). -/

theorem State.Successful.diagnostic {s : State} (h : s.Successful) : s.diagnostic = none := by
  simp only [State.diagnostic, h]

theorem State.CleanStop.diagnostic {s : State} {b : Byte} (h : s.CleanStop b) : s.diagnostic = some b := by
  simp only [State.diagnostic, h]

theorem State.ErrorStop.diagnostic {s : State} {f : EngineFault} (h : s.ErrorStop f) : s.diagnostic = none := by
  simp only [State.diagnostic, h]

/-- The fault numbers are 1, 2 and 3 (spec/60_exceptions.md R130). -/
theorem EngineFault.code_mem (f : EngineFault) : f.code ∈ [1, 2, 3] := by
  cases f <;> simp [EngineFault.code]

/-- Settles O60: the invariants hold at boot and every cycle keeps them; the three ends are three values of the run state; and
a longer run goes on from a state that no cycle changes. -/
theorem runsEndInOneOfThreeWays : Obligations.RunsEndInOneOfThreeWays := by
  intro image s t n hb h
  obtain ⟨hinv, hreason⟩ := inv_and_stopReason_of_boot hb h
  refine ⟨hinv, hreason, t.running_or_ended, fun hs => ⟨hs.diagnostic, fun b f => ⟨fun hc => ?_, fun he => ?_⟩⟩,
    fun b hc => ⟨hc.diagnostic, fun f he => ?_⟩, fun f he => ⟨he.diagnostic, f.code_mem⟩, fun hstop k => ?_⟩
  · cases hs.symm.trans hc
  · cases hs.symm.trans he
  · cases hc.symm.trans he
  · exact (runFor_add h k).trans (runFor_of_stopped (State.stopped_iff.mp hstop) k)

end Sys2Proof.Machine
end

section
/-! SUPPORT. LDI and PRN (spec/41_load_and_print.md R85, R86): their results are the two outcomes of the one register
check. -/

namespace Sys2Proof.Machine

/-- Settles O21: LDI is one register check, then the write and the advance; a valid operand passes the check and any other is
raised by it. -/
theorem ldiLoadsTheImmediate : Obligations.LdiLoadsTheImmediate :=
  fun _ _ s => ⟨rfl, fun ha => withReg_of_lt ha s _, fun ha => withReg_of_ge ha s _⟩

/-- Settles O22: PRN is one register check, then the output and the advance; a valid operand passes the check and any other is
raised by it. -/
theorem prnEmitsTheRegister : Obligations.PrnEmitsTheRegister :=
  fun _ s => ⟨rfl, fun ha => withReg_of_lt ha s _, fun ha => withReg_of_ge ha s _⟩

end Sys2Proof.Machine
end

section
/-! SUPPORT. The ten ALU instructions (spec/42_alu.md): what one does with valid operands is what its operation answers for the
two values; the faults are those of the shared register checks. -/

namespace Sys2Proof.Machine

/-! ## What an operation's answer makes of the state -/

/-- An operation that answers a value writes it to register A. -/
theorem aluBinary_of_write {op : AluOp} {a b v : Byte} {s : State} (ha : a.toNat < 8) (hb : b.toNat < 8)
    (h : alu op (s.reg ⟨a.toNat, ha⟩) (s.reg ⟨b.toNat, hb⟩) = .write v) :
    aluBinary op a b s = .next { s with regs := s.regs.set a.toNat v ha, pc := s.pc + 3 } := by
  rw [aluBinary_of_lt op ha hb, applyAlu, h]; rfl

/-- An operation that answers flags writes them. -/
theorem aluBinary_of_flags {op : AluOp} {a b : Byte} {f : Flags} {s : State} (ha : a.toNat < 8) (hb : b.toNat < 8)
    (h : alu op (s.reg ⟨a.toNat, ha⟩) (s.reg ⟨b.toNat, hb⟩) = .flags f) :
    aluBinary op a b s = .next { s with fl := f, pc := s.pc + 3 } := by
  rw [aluBinary_of_lt op ha hb, applyAlu, h]; rfl

/-- An operation that fails with DivisionByZero raises it with the divisor's operand byte. -/
theorem aluBinary_of_divisionByZero {op : AluOp} {a b : Byte} {s : State} (ha : a.toNat < 8) (hb : b.toNat < 8)
    (h : alu op (s.reg ⟨a.toNat, ha⟩) (s.reg ⟨b.toNat, hb⟩) = .divisionByZero) :
    aluBinary op a b s = .next { s with rs := .faulted (.divisionByZero b) } := by
  rw [aluBinary_of_lt op ha hb, applyAlu, h]; rfl

/-- The two register faults of an OP2RR ALU instruction, `opa` before `opb` (R102). -/
theorem aluBinary_register_faults (op : AluOp) (a b : Byte) (s : State) :
    (7 < a.toNat → aluBinary op a b s = .next { s with rs := .faulted (.invalidRegister a) }) ∧
    (a.toNat < 8 → 7 < b.toNat → aluBinary op a b s = .next { s with rs := .faulted (.invalidRegister b) }) :=
  ⟨fun ha => aluBinary_of_ge_left op b ha s, fun ha hb => aluBinary_of_ge_right op ha hb s⟩

/-! ## The operations' values -/

/-- Taking a byte of a number already reduces it modulo 256 (R101). -/
theorem ofNat_mod_256 (n : Nat) : BitVec.ofNat 8 (n % 256) = BitVec.ofNat 8 n :=
  BitVec.eq_of_toNat_eq (by simp)

/-- A left shift by 8 or more leaves none of the value's bits: 256 divides the power of 2 (R98). -/
theorem aluShl_of_ge {x n : Byte} (h : 8 ≤ n.toNat) : aluShl x n = 0 := by
  have hdvd : 256 ∣ x.toNat * 2 ^ n.toNat := Dvd.dvd.mul_left (Nat.pow_dvd_pow 2 h) x.toNat
  rw [aluShl, ← ofNat_mod_256, Nat.mod_eq_zero_of_dvd hdvd]; rfl

/-- A right shift by 8 or more leaves none of the value's bits: the value is below the power of 2 (R99). -/
theorem aluShr_of_ge {x n : Byte} (h : 8 ≤ n.toNat) : aluShr x n = 0 := by
  have hlt : x.toNat < 2 ^ n.toNat := x.isLt.trans_le (Nat.pow_le_pow_right Nat.two_pos h)
  rw [aluShr, Nat.div_eq_of_lt hlt]; rfl

/-- CMP's flags are the three comparisons of the unsigned values (R93). -/
theorem compareFlags_eq (x y : Byte) :
    compareFlags x y = ⟨decide (x.toNat < y.toNat), decide (y.toNat < x.toNat), decide (x = y)⟩ := by
  rcases compareFlags_cases x y with ⟨h, hf⟩ | ⟨h, hf⟩ | ⟨h, hf⟩
  · simp [hf, h, h.le, ne_of_apply_ne BitVec.toNat h.ne]
  · simp [hf, h, h.le, ne_of_apply_ne BitVec.toNat h.ne']
  · rw [hf]; simp [h]

/-! ## The instructions -/

/-- Settles O25: the operation answers the flags of the comparison. -/
theorem cmpSetsExactlyOneFlag : Obligations.CmpSetsExactlyOneFlag := fun a b s =>
  ⟨rfl, fun ha hb => aluBinary_of_flags ha hb (congrArg AluEffect.flags (compareFlags_eq _ _)),
    aluBinary_register_faults .cmp a b s⟩

/-- Settles O30: the count is not masked, and from 8 on nothing of the value is left. -/
theorem shlResult : Obligations.ShlResult := fun a b s =>
  ⟨rfl, fun ha hb => aluBinary_of_write ha hb (congrArg AluEffect.write (ofNat_mod_256 _).symm),
    fun ha hb hn => aluBinary_of_write ha hb (congrArg AluEffect.write (aluShl_of_ge hn)),
    aluBinary_register_faults .shl a b s⟩

/-- Settles O31: the count is not masked, and from 8 on nothing of the value is left. -/
theorem shrResult : Obligations.ShrResult := fun a b s =>
  ⟨rfl, fun ha hb => aluBinary_of_write ha hb rfl,
    fun ha hb hn => aluBinary_of_write ha hb (congrArg AluEffect.write (aluShr_of_ge hn)),
    aluBinary_register_faults .shr a b s⟩

/-- Settles O23: the operation answers the sum's low byte. -/
theorem addResult : Obligations.AddResult := fun a b s =>
  ⟨rfl, fun ha hb => aluBinary_of_write ha hb (congrArg AluEffect.write (ofNat_mod_256 _).symm),
    aluBinary_register_faults .add a b s⟩

/-- Settles O24: the operation answers the product's low byte. -/
theorem mulResult : Obligations.MulResult := fun a b s =>
  ⟨rfl, fun ha hb => aluBinary_of_write ha hb (congrArg AluEffect.write (ofNat_mod_256 _).symm),
    aluBinary_register_faults .mul a b s⟩

/-- Settles O26: the operation answers the bitwise and. -/
theorem andResult : Obligations.AndResult := fun a b s =>
  ⟨rfl, fun ha hb => aluBinary_of_write ha hb rfl, aluBinary_register_faults .and a b s⟩

/-- Settles O27: the operation answers the bitwise or. -/
theorem orResult : Obligations.OrResult := fun a b s =>
  ⟨rfl, fun ha hb => aluBinary_of_write ha hb rfl, aluBinary_register_faults .or a b s⟩

/-- Settles O28: the operation answers the bitwise exclusive or, which is 0 for equal values. -/
theorem xorResult : Obligations.XorResult := fun a b s =>
  ⟨rfl, fun ha hb => aluBinary_of_write ha hb rfl,
    fun ha => ⟨_, aluBinary_of_write ha ha (congrArg AluEffect.write BitVec.xor_self), State.setReg_reg_self s ⟨a.toNat, ha⟩ 0⟩,
    aluBinary_register_faults .xor a b s⟩

/-- Settles O29: NOT checks its one operand, then applies its operation to that register alone. -/
theorem notResult : Obligations.NotResult := fun _ s =>
  ⟨rfl, fun ha => withReg_of_lt ha s _, fun ha => withReg_of_ge ha s _⟩

/-- Settles O32: the operation tests the divisor, after the register checks. -/
theorem modResult : Obligations.ModResult := fun a b s =>
  ⟨rfl, fun ha hb hne => aluBinary_of_write ha hb (if_neg hne),
    fun ha hb h0 => aluBinary_of_divisionByZero ha hb (if_pos h0),
    aluBinary_register_faults .mod a b s⟩

end Sys2Proof.Machine
end

section
/-! SUPPORT. PUSH and POP (spec/43_stack.md): the next state of each when its operand names a register, what each field of that
state holds, and the two in sequence (R113). -/

namespace Sys2Proof.Machine

/-! ## PUSH -/

/-- The state PUSH of register `r` leaves (R111). -/
def State.pushed (s : State) (r : RegIdx) : State :=
  (s.decSp.setMem (s.mem.write (s.sp - 1).toNat (s.decSp.reg r))).advance 2

/-- PUSH with an operand that names a register completes. -/
theorem execPush_of_lt {a : Byte} (ha : a.toNat < 8) (s : State) : execPush a s = .next (s.pushed ⟨a.toNat, ha⟩) := by
  rw [execPush, withReg_of_lt ha, withWrite_byte, State.decSp_sp, State.decSp_mem, State.pushed]

/-- PUSH writes no register but the stack pointer. -/
theorem State.pushed_reg (s : State) (r q : RegIdx) : (s.pushed r).reg q = if q = Config.spIndex then s.sp - 1 else s.reg q :=
  s.decSp_reg q

theorem State.pushed_sp (s : State) (r : RegIdx) : (s.pushed r).sp = s.sp - 1 := s.decSp_sp

/-- The cell at the new stack pointer holds the register as it reads after the decrement. -/
theorem State.pushed_read_sp {s : State} (r : RegIdx) (hm : s.mem.wf = true) :
    (s.pushed r).mem.read (s.pushed r).sp.toNat = (s.pushed r).reg r := by
  rw [State.pushed_sp]; exact Memory.read_write_self _ _ hm

/-- Every other cell keeps its byte. -/
theorem State.pushed_read_ne {s : State} (r : RegIdx) {x : Nat} (hx : x ≠ (s.pushed r).sp.toNat) :
    (s.pushed r).mem.read x = s.mem.read x :=
  Memory.read_write_ne _ _ (by rwa [State.pushed_sp] at hx)

/-- Settles O33: the stored byte is the operand register of the state PUSH leaves, where register 7 is already decremented. -/
theorem pushResult : Obligations.PushResult := by
  intro a s
  refine ⟨rfl, fun ha hm => ⟨_, execPush_of_lt ha s, ?_, fun r hr => ?_, ?_, fun x => State.pushed_read_ne _, rfl, rfl, rfl, rfl⟩,
    fun ha => withReg_of_ge ha s _⟩
  · exact (congrArg BitVec.toNat (s.pushed_sp _)).trans (sp_sub_one_toNat s)
  · exact (s.pushed_reg _ r).trans (if_neg hr)
  · refine (State.pushed_read_sp _ hm).trans ?_
    simp only [State.pushed_reg, operand_eq_sp ha]; rfl

/-! ## POP -/

/-- The state POP to register `r` leaves (R112). -/
def State.popped (s : State) (r : RegIdx) : State :=
  (s.setReg r (s.mem.read s.sp.toNat)).incSp.advance 2

/-- POP with an operand that names a register completes. -/
theorem execPop_of_lt {a : Byte} (ha : a.toNat < 8) (s : State) : execPop a s = .next (s.popped ⟨a.toNat, ha⟩) := by
  rw [execPop, withReg_of_lt ha, withRead_byte, State.popped]

/-- POP increments register 7 as the load left it. -/
theorem State.popped_sp (s : State) (r : RegIdx) :
    (s.popped r).sp = (if Config.spIndex = r then s.mem.read s.sp.toNat else s.sp) + 1 := by
  rw [State.popped, State.advance_sp, State.incSp_sp, State.setReg_sp]

/-- Of the registers other than the stack pointer POP writes its operand alone, with the byte at the stack pointer. -/
theorem State.popped_reg_ne_sp (s : State) (r : RegIdx) {q : RegIdx} (hq : q ≠ Config.spIndex) :
    (s.popped r).reg q = if q = r then s.mem.read s.sp.toNat else s.reg q := by
  rw [State.popped, State.advance_reg, State.incSp_reg, if_neg hq, State.setReg_reg]

/-- Settles O34: POP R7 increments the byte it loaded, any other POP the stack pointer it loaded from. -/
theorem popResult : Obligations.PopResult := by
  intro a s
  refine ⟨rfl, fun ha => ⟨_, execPop_of_lt ha s, fun h7 => ?_, fun h7 => ?_, fun r hr hra => ?_, rfl, rfl, rfl, rfl, rfl⟩,
    fun ha => withReg_of_ge ha s _⟩
  · have hne : (⟨a.toNat, ha⟩ : RegIdx) ≠ Config.spIndex := (operand_eq_sp ha).not.mpr h7
    have hsp : (s.popped ⟨a.toNat, ha⟩).sp = s.sp + 1 := by rw [State.popped_sp, if_neg hne.symm]
    exact ⟨by rw [State.popped_reg_ne_sp s _ hne, if_pos rfl]; rfl, (congrArg BitVec.toNat hsp).trans (BitVec.toNat_add _ 1)⟩
  · have hsp : (s.popped ⟨a.toNat, ha⟩).sp = s.mem.read s.sp.toNat + 1 := by
      rw [State.popped_sp, if_pos ((operand_eq_sp ha).mpr h7).symm]
    exact (congrArg BitVec.toNat hsp).trans (BitVec.toNat_add _ 1)
  · rw [State.popped_reg_ne_sp s _ hr, if_neg fun e => hra (congrArg Fin.val e)]

/-! ## PUSH, then POP -/

/-- The bytes of a one-operand instruction at the pc are fetched as that instruction. -/
theorem fetch_op1r {s : State} {o : Opcode} {mk : Byte → Instr} (hf : o.format = .op1r mk) (hpc : s.pc.toNat + 2 ≤ 256)
    (hop : s.mem.read s.pc.toNat = opMap o) : fetch s = .instr (mk (s.mem.read (s.pc.toNat + 1))) := by
  have hl : lookup (s.mem.read s.pc.toNat) = some o := by rw [hop]; exact lookup_opMap o
  rw [fetch_of_lookup (by omega) hl, hf]
  simp only [fetchOperands, Memory.read?_of_lt _ (show s.pc.toNat + 1 < 256 by omega)]

/-- A cycle at the bytes of PUSH Rr. -/
theorem step_push {s : State} {r : RegIdx} (hr : s.rs = .running) (hpc : s.pc.toNat + 2 ≤ 256)
    (hop : s.mem.read s.pc.toNat = 0x45) (hopa : s.mem.read (s.pc.toNat + 1) = BitVec.ofNat 8 r.val) :
    step s = .next (s.pushed r) := by
  rw [step_of_instr hr (fetch_push hpc hop), hopa]; exact execPush_ofNat r s

/-- A cycle at the bytes of POP Rr. -/
theorem step_pop {s : State} {r : RegIdx} (hr : s.rs = .running) (hpc : s.pc.toNat + 2 ≤ 256)
    (hop : s.mem.read s.pc.toNat = 0x46) (hopa : s.mem.read (s.pc.toNat + 1) = BitVec.ofNat 8 r.val) :
    step s = .next (s.popped r) := by
  rw [step_of_instr hr (fetch_op1r (o := .pop) rfl hpc hop), hopa]
  exact (withReg_ofNat r s _).trans (withRead_byte s.sp s _)

/-- POP after PUSH loads what PUSH stored, when neither register is the stack pointer. -/
theorem pushed_popped_reg {s : State} {r r2 : RegIdx} (hm : s.mem.wf = true) (hr : r ≠ Config.spIndex)
    (hr2 : r2 ≠ Config.spIndex) : ((s.pushed r).popped r2).reg r2 = s.reg r := by
  rw [State.popped_reg_ne_sp _ _ hr2, if_pos rfl, State.pushed_read_sp r hm, State.pushed_reg, if_neg hr]

/-- POP after PUSH restores the stack pointer, when it does not load it. -/
theorem pushed_popped_sp (s : State) (r : RegIdx) {r2 : RegIdx} (hr2 : r2 ≠ Config.spIndex) :
    ((s.pushed r).popped r2).sp = s.sp := by
  rw [State.popped_sp, if_neg hr2.symm, State.pushed_sp, BitVec.sub_add_cancel]

/-- Settles O49: the second cycle fetches the POP, since the store went to neither of its bytes, and the POP then undoes the
PUSH. -/
theorem pushThenPop : Obligations.PushThenPop := by
  intro s r r2 hs hr hpc hr7 hr27 hpush hpusha hpop hpopa hne2 hne3
  obtain ⟨hm, -, -⟩ := hs
  have hsp : (s.pushed r).sp.toNat = ((s.reg 7).toNat + 255) % 256 := by rw [State.pushed_sp, sp_sub_one_toNat]
  have hpc2 : (s.pushed r).pc.toNat = s.pc.toNat + 2 := advance_toNat (p := s.pc) (by omega)
  have hpc4 : ((s.pushed r).popped r2).pc.toNat = (s.pushed r).pc.toNat + 2 := advance_toNat (p := (s.pushed r).pc) (by omega)
  have hread {x : Nat} (hx : ((s.reg 7).toNat + 255) % 256 ≠ x) : (s.pushed r).mem.read x = s.mem.read x :=
    State.pushed_read_ne r (by rw [hsp]; exact hx.symm)
  have hstep : step (s.pushed r) = .next ((s.pushed r).popped r2) :=
    step_pop hr (by omega) (by rw [hpc2, hread hne2, hpop]) (by rw [hpc2, hread hne3, hpopa])
  refine ⟨_, runFor_two (step_push hr (by omega) hpush hpusha) hstep, pushed_popped_reg hm hr7 hr27, pushed_popped_sp s r hr27,
    by omega, hr⟩

end Sys2Proof.Machine
end

section
/-! SUPPORT. The five control transfers (spec/44_control_transfer.md): the next state of CALL and RET and what each field of it
holds, the jump to a register that JMP, JEQ and JNE share, and CALL with a later RET (R121). -/

namespace Sys2Proof.Machine

/-! ## CALL -/

/-- The state CALL of register `r` leaves (R116). -/
def State.called (s : State) (r : RegIdx) : State :=
  (s.decSp.setMem (s.mem.write (s.sp - 1).toNat (BitVec.ofNat 8 (s.pc.toNat + 2)))).jump (s.decSp.reg r)

/-- CALL with an operand that names a register completes when its return address is an address. -/
theorem execCall_of_lt {a : Byte} (ha : a.toNat < 8) {s : State} (hpc : s.pc.toNat ≤ 253) :
    execCall a s = .next (s.called ⟨a.toNat, ha⟩) := by
  rw [execCall, withReg_of_lt ha, if_neg (by omega), withWrite_byte, State.decSp_sp, State.decSp_mem, State.setMem_reg,
    State.called]

/-- CALL with a return address that is no address raises it (D10). -/
theorem execCall_of_pc_ge {a : Byte} (ha : a.toNat < 8) {s : State} (hpc : 254 ≤ s.pc.toNat) :
    execCall a s = .next (s.raise (.addressOutOfRange (s.pc.toNat + 2))) := by
  rw [execCall, withReg_of_lt ha, if_pos (by omega)]

/-- CALL writes no register but the stack pointer. -/
theorem State.called_reg (s : State) (r q : RegIdx) : (s.called r).reg q = if q = Config.spIndex then s.sp - 1 else s.reg q :=
  s.decSp_reg q

theorem State.called_sp (s : State) (r : RegIdx) : (s.called r).sp = s.sp - 1 := s.decSp_sp

/-- The target is the operand register as it reads after the decrement. -/
theorem State.called_pc (s : State) (r : RegIdx) : (s.called r).pc.toNat = ((s.called r).reg r).toNat := jump_pc_toNat ..

/-- The cell at the new stack pointer holds the address of the instruction after the CALL. -/
theorem State.called_read_sp {s : State} (r : RegIdx) (hm : s.mem.wf = true) (hpc : s.pc.toNat ≤ 253) :
    ((s.called r).mem.read (s.called r).sp.toNat).toNat = s.pc.toNat + 2 := by
  have hread : (s.called r).mem.read (s.sp - 1).toNat = BitVec.ofNat 8 (s.pc.toNat + 2) := Memory.read_write_self _ _ hm
  rw [State.called_sp, hread, BitVec.toNat_ofNat]; omega

/-- Every other cell keeps its byte. -/
theorem State.called_read_ne {s : State} (r : RegIdx) {x : Nat} (hx : x ≠ (s.called r).sp.toNat) :
    (s.called r).mem.read x = s.mem.read x :=
  Memory.read_write_ne _ _ (by rwa [State.called_sp] at hx)

/-- Settles O35: CALL jumps to the operand register of the state it leaves, where register 7 is already decremented; its faults
come from the register check and then from the check of the return address. -/
theorem callResult : Obligations.CallResult := by
  intro a s
  refine ⟨rfl, fun ha hm hpc => ⟨_, execCall_of_lt ha hpc, ?_, fun r hr => ?_, State.called_read_sp _ hm hpc,
      fun x => State.called_read_ne _, ?_, rfl, rfl, rfl⟩,
    fun ha hpc => execCall_of_pc_ge ha hpc, fun ha => withReg_of_ge ha s _⟩
  · exact (congrArg BitVec.toNat (s.called_sp _)).trans (sp_sub_one_toNat s)
  · exact (s.called_reg _ r).trans (if_neg hr)
  · refine (s.called_pc _).trans ?_
    simp only [State.called_reg, operand_eq_sp ha]; rfl

/-! ## RET -/

/-- The state RET leaves (R117). -/
def State.returned (s : State) : State := s.incSp.jump (s.mem.read s.sp.toNat)

/-- RET writes no register but the stack pointer. -/
theorem State.returned_reg (s : State) (q : RegIdx) : s.returned.reg q = if q = Config.spIndex then s.sp + 1 else s.reg q :=
  s.incSp_reg q

theorem State.returned_sp (s : State) : s.returned.sp = s.sp + 1 := s.incSp_sp

/-- RET goes to the byte at the stack pointer. -/
theorem State.returned_pc (s : State) : s.returned.pc.toNat = (s.mem.read s.sp.toNat).toNat := jump_pc_toNat ..

/-- Settles O36: RET has no operand and its read is at a byte address, so it has one outcome. -/
theorem retResult : Obligations.RetResult :=
  ⟨rfl, fun s => ⟨s.returned, execRet_eq s, s.returned_pc, (congrArg BitVec.toNat s.returned_sp).trans (BitVec.toNat_add _ 1),
    fun r hr => (s.returned_reg r).trans (if_neg hr), rfl, rfl, rfl, rfl⟩⟩

/-! ## JMP, JEQ, JNE -/

/-- A jump to a valid register zero-extends its value into the pc. -/
theorem jumpTo_of_lt {a : Byte} (ha : a.toNat < 8) (s : State) :
    jumpTo a s = .next { s with pc := BitVec.ofNat 9 (s.reg ⟨a.toNat, ha⟩).toNat } := by
  rw [jumpTo, withReg_of_lt ha, State.jump, BitVec.ofNat_toNat]

/-- Any other register operand is raised. -/
theorem jumpTo_of_ge {a : Byte} (ha : 7 < a.toNat) (s : State) : jumpTo a s = .next (s.raise (.invalidRegister a)) :=
  withReg_of_ge ha s _

theorem execJeq_of_equal (a : Byte) {s : State} (he : s.fl.equal = true) : execJeq a s = jumpTo a s := if_pos he

theorem execJeq_of_not_equal (a : Byte) {s : State} (he : s.fl.equal = false) : execJeq a s = .next (s.advance 2) :=
  if_neg (ne_true_of_eq_false he)

theorem execJne_of_equal (a : Byte) {s : State} (he : s.fl.equal = true) : execJne a s = .next (s.advance 2) := if_pos he

theorem execJne_of_not_equal (a : Byte) {s : State} (he : s.fl.equal = false) : execJne a s = jumpTo a s :=
  if_neg (ne_true_of_eq_false he)

/-- Settles O37: JMP is the jump to its register. -/
theorem jmpResult : Obligations.JmpResult := fun _ s => ⟨rfl, fun ha => jumpTo_of_lt ha s, fun ha => jumpTo_of_ge ha s⟩

/-- Settles O38: with equal set JEQ is the jump to its register, else the advance, which checks no register. -/
theorem jeqResult : Obligations.JeqResult := fun a s =>
  ⟨rfl, fun he ha => (execJeq_of_equal a he).trans (jumpTo_of_lt ha s),
    fun he ha => (execJeq_of_equal a he).trans (jumpTo_of_ge ha s), execJeq_of_not_equal a⟩

/-- Settles O39: JNE is JEQ with the two branches exchanged. -/
theorem jneResult : Obligations.JneResult := fun a s =>
  ⟨rfl, fun he ha => (execJne_of_not_equal a he).trans (jumpTo_of_lt ha s),
    fun he ha => (execJne_of_not_equal a he).trans (jumpTo_of_ge ha s), execJne_of_equal a⟩

/-! ## What the transfers have in common, and CALL with a later RET -/

/-- An instruction that leaves the engine running completes. -/
theorem exec_completes {i : Instr} {s t : State} (h : exec i s = .next t) (hr : t.rs = .running) : Completes i s t := by
  rcases exec_cases h with ⟨f, -, rfl⟩ | ⟨-, hc⟩
  · cases hr
  · exact hc

/-- A taken jump writes no register, so its target is still the register's value afterwards. -/
theorem CompletesJump.pc_eq_reg {a : Byte} {s t : State} (h : CompletesJump a s t) :
    ∃ ha : a.toNat < 8, t.pc.toNat = (t.reg ⟨a.toNat, ha⟩).toNat := by
  obtain ⟨ha, rfl⟩ := h
  exact ⟨ha, jump_pc_toNat ..⟩

/-- A transfer to a register, when it transfers, goes to the register's value in the state it leaves. -/
theorem Completes.pc_eq_reg {a : Byte} {i : Instr} {s t : State} (h : Completes i s t)
    (hi : i ∈ [.call a, .jmp a, .jeq a, .jne a]) (hjeq : i = .jeq a → s.fl.equal = true) (hjne : i = .jne a → s.fl.equal = false) :
    ∃ ha : a.toNat < 8, t.pc.toNat = (t.reg ⟨a.toNat, ha⟩).toNat := by
  simp only [List.mem_cons, List.not_mem_nil, or_false] at hi
  obtain rfl | rfl | rfl | rfl := hi
  · obtain ⟨ha, -, rfl⟩ := h
    exact ⟨ha, s.called_pc _⟩
  · exact CompletesJump.pc_eq_reg h
  · obtain ⟨-, hj⟩ | ⟨he, -⟩ := h
    · exact hj.pc_eq_reg
    · cases he.symm.trans (hjeq rfl)
  · obtain ⟨-, hj⟩ | ⟨he, -⟩ := h
    · exact hj.pc_eq_reg
    · cases he.symm.trans (hjne rfl)

/-- Settles O48: the target of RET is the popped byte, that of the other four the operand register of the state they leave. -/
theorem transfersSetAByteAddress : Obligations.TransfersSetAByteAddress := by
  intro a i s t _ hi h hrun hjeq hjne
  have hc : Completes i s t := exec_completes h hrun
  by_cases hret : i = .ret
  · subst hret
    obtain rfl : t = s.returned := hc
    exact ⟨s.returned_pc.trans_le (Nat.le_of_lt_succ (byte_lt _)), fun _ => s.returned_pc, fun e => absurd rfl e⟩
  · obtain ⟨ha, hpc⟩ := hc.pc_eq_reg (by simpa [hret] using hi) hjeq hjne
    exact ⟨hpc.trans_le (Nat.le_of_lt_succ (byte_lt _)), fun e => absurd e hret, fun _ => ⟨ha, hpc⟩⟩

/-- Settles O50: the RET pops the byte the CALL saved, and its increment undoes the CALL's decrement. -/
theorem callThenRet : Obligations.CallThenRet := by
  intro a s t u v ⟨hm, _, _⟩ _ hcall hrun hsp hread hret
  obtain ⟨ha, hpc, ht⟩ : Completes (.call a) s t := exec_completes hcall hrun
  obtain rfl : t = s.called ⟨a.toNat, ha⟩ := ht
  obtain rfl : v = u.returned := next_inj ((execRet_eq u).symm.trans hret)
  have husp : u.sp = (s.called ⟨a.toNat, ha⟩).sp := hsp
  constructor
  · calc u.returned.pc.toNat = (u.mem.read u.sp.toNat).toNat := u.returned_pc
      _ = ((s.called ⟨a.toNat, ha⟩).mem.read (s.called ⟨a.toNat, ha⟩).sp.toNat).toNat := by
        rw [husp]; exact congrArg BitVec.toNat hread
      _ = s.pc.toNat + 2 := State.called_read_sp _ hm (by omega)
  · calc u.returned.sp = u.sp + 1 := u.returned_sp
      _ = s.sp - 1 + 1 := by rw [husp, State.called_sp]
      _ = s.sp := BitVec.sub_add_cancel ..

end Sys2Proof.Machine
end

section
/-! SUPPORT. Faults (spec/60_exceptions.md): an instruction and a cycle raise a fault exactly for its reason, and what each kind
of fault then says of the instruction. -/

namespace Sys2Proof.Machine

/-! ## When an instruction faults -/

/-- The reason to fault names one fault. -/
theorem Raises.unique {i : Instr} {s : State} {f g : EngineFault} (hf : Raises i s f) (hg : Raises i s g) : f = g := by
  rcases hf with ⟨idx, hi, rfl⟩ | ⟨hn, hf⟩ <;> rcases hg with ⟨idx', hi', rfl⟩ | ⟨hn', hg⟩
  · obtain rfl : idx = idx' := by injection hi.symm.trans hi'
    rfl
  · cases hi.symm.trans hn'
  · cases hn.symm.trans hi'
  · rcases hf with ⟨a, b, -, rfl, -, -, rfl⟩ | ⟨a, rfl, -, -, rfl⟩ <;>
      rcases hg with ⟨a', b', -, hi, -, -, rfl⟩ | ⟨a', hi, -, -, rfl⟩ <;> cases hi <;> rfl

/-- An instruction that completes with valid registers has no reason to fault. -/
theorem Completes.not_raises {i : Instr} {s t : State} {f : EngineFault} (hc : Completes i s t)
    (hn : s.firstBadRegister i = none) : ¬ Raises i s f := by
  rintro (⟨idx, hi, -⟩ | ⟨-, ⟨a, b, hb, rfl, -, h0, -⟩ | ⟨a, rfl, -, hp, -⟩⟩)
  · cases hn.symm.trans hi
  · obtain ⟨-, hne⟩ := hc
    exact hne hb h0
  · obtain ⟨-, hp', -⟩ := hc
    omega

/-- An instruction with a reason to fault faults. -/
theorem Raises.exec_eq {i : Instr} {s : State} {f : EngineFault} (hf : Raises i s f) : exec i s = .next (s.raise f) := by
  obtain ⟨t, h⟩ := exec_answers i s
  rcases exec_cases h with ⟨g, hg, rfl⟩ | ⟨hn, hc⟩
  · rw [h, hf.unique hg]
  · exact absurd hf (hc.not_raises hn)

/-- In a running engine an instruction faults exactly when it has a reason to. -/
theorem exec_faulted_iff {i : Instr} {s t : State} {f : EngineFault} (hr : s.rs = .running) (h : exec i s = .next t) :
    t.rs = .faulted f ↔ Raises i s f := by
  refine ⟨fun ht => ?_, fun hf => congrArg State.rs (next_inj (hf.exec_eq.symm.trans h))⟩
  rcases exec_cases h with ⟨g, hg, rfl⟩ | ⟨-, hc⟩
  · obtain rfl : g = f := by injection ht
    exact hg
  · rcases hc.rs_of_running hr with e | e <;> cases e.symm.trans ht

/-- No operand is bad exactly when every register operand used names a register. -/
theorem firstBadRegister_eq_none_iff {s : State} {i : Instr} :
    s.firstBadRegister i = none ↔ ∀ b ∈ s.registersUsed i, b.toNat < 8 := by
  simp [State.firstBadRegister, Nat.lt_succ_iff]

/-! ## The reasons of each kind of fault -/

theorem raises_invalidRegister_iff {i : Instr} {s : State} {idx : Byte} :
    Raises i s (.invalidRegister idx) ↔ s.firstBadRegister i = some idx := by
  simp [Raises]

theorem raises_divisionByZero_iff {i : Instr} {s : State} {b : Byte} :
    Raises i s (.divisionByZero b) ↔
      ∃ a, i = .mod a b ∧ a.toNat < 8 ∧ ∃ hb : b.toNat < 8, s.reg ⟨b.toNat, hb⟩ = 0 := by
  constructor
  · rintro (⟨idx, -, hf⟩ | ⟨-, ⟨a, b', hb, rfl, ha, h0, hf⟩ | ⟨a, -, -, -, hf⟩⟩) <;> cases hf
    exact ⟨a, rfl, ha, hb, h0⟩
  · rintro ⟨a, rfl, ha, hb, h0⟩
    exact .inr ⟨find_bad_none_two ha hb, .inl ⟨a, b, hb, rfl, ha, h0, rfl⟩⟩

theorem raises_addressOutOfRange_iff {i : Instr} {s : State} {addr : Nat} :
    Raises i s (.addressOutOfRange addr) ↔
      ∃ a, i = .call a ∧ a.toNat < 8 ∧ 255 < s.pc.toNat + 2 ∧ addr = s.pc.toNat + 2 := by
  constructor
  · rintro (⟨idx, -, hf⟩ | ⟨-, ⟨a, b, hb, -, -, -, hf⟩ | ⟨a, hi, ha, hp, hf⟩⟩) <;> cases hf
    exact ⟨a, hi, ha, hp, rfl⟩
  · rintro ⟨a, rfl, ha, hp, rfl⟩
    exact .inr ⟨find_bad_none_one ha, .inr ⟨a, rfl, ha, hp, rfl⟩⟩

/-- Settles O16: of the reasons to fault, InvalidRegister's is the first bad operand. -/
theorem invalidRegisterExactlyWhen : Obligations.InvalidRegisterExactlyWhen :=
  fun _ _ _ _ hr h => (exec_faulted_iff hr h).trans raises_invalidRegister_iff

/-- Settles O18: of the reasons to fault, DivisionByZero's is MOD's alone, and a fault is the run state alone changed. -/
theorem divisionByZeroExactlyWhen : Obligations.DivisionByZeroExactlyWhen := by
  intro i s t b hr h
  refine ⟨(exec_faulted_iff hr h).trans raises_divisionByZero_iff, fun ht => ?_⟩
  exact next_inj (((exec_faulted_iff hr h).mp ht).exec_eq.symm.trans h)

/-! ## When a cycle faults -/

/-- Settles O14: a cycle that ends in a fault completed no instruction. -/
theorem faultsArePrecise : Obligations.FaultsArePrecise := by
  intro s t f hr h ht
  rw [← ht]
  exact step_eq_of_not_completed hr h (by simp [ht]) (by simp [ht])

/-- A cycle of a running engine faults exactly when its fetch does or the instruction it fetched has a reason to. -/
theorem step_faulted_iff {s t : State} {f : EngineFault} (hr : s.rs = .running) (h : step s = .next t) :
    t.rs = .faulted f ↔ fetch s = .fault f ∨ ∃ i, fetch s = .instr i ∧ Raises i s f := by
  cases hf : fetch s with
  | instr i => simpa using exec_faulted_iff hr ((step_of_instr hr hf).symm.trans h)
  | unknown b =>
    obtain rfl := next_inj ((step_of_unknown hr hf).symm.trans h)
    simp
  | fault g =>
    obtain rfl := next_inj ((step_of_fault hr hf).symm.trans h)
    simp

/-- The fetch faults exactly at a pc above memory and where an operand byte of the opcode at the pc would lie above it. -/
theorem fetch_fault_iff {s : State} {f : EngineFault} :
    fetch s = .fault f ↔
      (255 < s.pc.toNat ∧ f = .addressOutOfRange s.pc.toNat) ∨
      (s.pc.toNat ≤ 255 ∧ f = .addressOutOfRange 256 ∧
        ∃ o, lookup (s.mem.read s.pc.toNat) = some o ∧ 255 < s.pc.toNat + o.format.nops) := by
  constructor
  · intro h
    obtain ⟨i, h', -⟩ | ⟨h', -⟩ | ⟨o, h', hlt, hl, hn⟩ | ⟨h', hge⟩ := fetch_cases s <;> cases h'.symm.trans h
    · exact .inr ⟨by omega, rfl, o, hl, by omega⟩
    · exact .inl ⟨hge, rfl⟩
  · rintro (⟨hpc, rfl⟩ | ⟨hpc, rfl, o, hl, hn⟩)
    · exact fetch_of_pc_ge hpc
    · have hlt : s.pc.toNat < 256 := by omega
      rw [fetch_of_lookup hlt hl]
      rcases fetchOperands_cases o hlt with ⟨i, -, rfl, hlen, -⟩ | ⟨h, -⟩
      · unfold Instr.length at hlen; omega
      · exact h

/-- The fetched instruction is a CALL of `a` exactly when CALL's opcode and `a` lie at the pc and after it. -/
theorem fetch_eq_call_iff {s : State} {a : Byte} :
    fetch s = .instr (.call a) ↔ s.pc.toNat + 2 ≤ 256 ∧ lookup (s.mem.read s.pc.toNat) = some .call ∧
      s.mem.read (s.pc.toNat + 1) = a := by
  constructor
  · intro h
    obtain ⟨hlen, hop⟩ := fetch_instr h
    have h' := fetch_op1r (o := .call) rfl hlen (lookup_some hop).symm
    exact ⟨hlen, hop, by injection h'.symm.trans h with e; injection e⟩
  · rintro ⟨hlen, hop, rfl⟩
    exact fetch_op1r rfl hlen (lookup_some hop).symm

/-- Settles O17: the fetch raises AddressOutOfRange in two ways, and of the instructions only CALL does. -/
theorem addressOutOfRangeExactlyWhen : Obligations.AddressOutOfRangeExactlyWhen := by
  intro s t addr hr h
  have call_iff : (∃ i, fetch s = .instr i ∧ Raises i s (.addressOutOfRange addr)) ↔
      s.pc.toNat = 254 ∧ addr = 256 ∧ lookup (s.mem.read 254) = some .call ∧ (s.mem.read 255).toNat < 8 := by
    simp only [raises_addressOutOfRange_iff]
    constructor
    · rintro ⟨i, hf, a, rfl, ha, hp, rfl⟩
      obtain ⟨hlen, hop, rfl⟩ := fetch_eq_call_iff.mp hf
      have hpc : s.pc.toNat = 254 := by omega
      rw [hpc] at hop ha
      exact ⟨hpc, by omega, hop, ha⟩
    · rintro ⟨hpc, rfl, hop, ha⟩
      exact ⟨_, fetch_eq_call_iff.mpr ⟨by omega, by rwa [hpc], rfl⟩, _, rfl, by rwa [hpc], by omega, by omega⟩
  rw [step_faulted_iff hr h, fetch_fault_iff, call_iff, or_assoc]
  simp only [EngineFault.addressOutOfRange.injEq]

/-- Settles O15: each condition is the reason of the cycle's fault, whatever later conditions hold, since a cycle has one
outcome. -/
theorem faultPriority : Obligations.FaultPriority := by
  intro s t hr h
  have fetched {f : EngineFault} (hf : fetch s = .fault f) : t.rs = .faulted f := (step_faulted_iff hr h).mpr (.inl hf)
  refine ⟨fun hpc => fetched (fetch_of_pc_ge hpc), fun hpc hl => ?_, fun o hpc hl => ⟨fun he hn => ?_, fun he hn => ?_⟩,
    fun i rest hd => ?_⟩
  · have hu := step_of_unknown hr (fetch_of_lookup_none (by omega) hl)
    exact congrArg State.rs (next_inj (hu.symm.trans h))
  · exact fetched (fetch_fault_iff.mpr (.inr ⟨hpc, by rw [he], o, hl, by omega⟩))
  · exact fetched (fetch_fault_iff.mpr (.inr ⟨hpc, by rw [he], o, hl, by omega⟩))
  · have raised {f : EngineFault} (hf : Raises i s f) : t.rs = .faulted f :=
      (step_faulted_iff hr h).mpr (.inr ⟨i, fetch_of_decode hd, hf⟩)
    refine ⟨fun idx hi => raised (raises_invalidRegister_iff.mpr hi), fun hn => ⟨?_, ?_⟩⟩
    · rintro a b rfl h0
      have hreg := firstBadRegister_eq_none_iff.mp hn
      have hb : b.toNat < 8 := hreg b (by simp [State.registersUsed])
      exact raised (raises_divisionByZero_iff.mpr ⟨a, rfl, hreg a (by simp [State.registersUsed]), hb, h0 hb⟩)
    · rintro a rfl hpc
      have ha : a.toNat < 8 := firstBadRegister_eq_none_iff.mp hn a (by simp [State.registersUsed])
      exact raised (raises_addressOutOfRange_iff.mpr ⟨a, rfl, ha, by omega, rfl⟩)

/-! ## Unknown opcodes -/

/-- A byte that is none of the opcode values selects no row. -/
theorem lookup_eq_none_of_not_mem {b : Byte} (hb : b ∉ Opcode.all.map opMap) : lookup b = none :=
  lookupWith_none.mpr fun o ho => hb (ho ▸ List.mem_map_of_mem o.mem_all)

/-- Settles O12: the literal list is the opcode map read along the table's rows, so the byte selects no row and is what the
fetch reports. -/
theorem unknownOpcodeHaltsWithDiagnostic : Obligations.UnknownOpcodeHaltsWithDiagnostic := by
  intro s hr hpc hb
  have hl : lookup (s.mem.read s.pc.toNat) = none := lookup_eq_none_of_not_mem hb
  exact ⟨_, step_of_unknown hr (fetch_of_lookup_none (by omega) hl), rfl, State.CleanStop.diagnostic rfl⟩

end Sys2Proof.Machine
end

section
/-! SUPPORT. Boot (spec/70_reset_and_hazards.md R161 to R163): what the first cycle fetches, and what a transaction of the host
leaves. -/

namespace Sys2Proof.Machine

/-- An image of at most 256 bytes is started (R162). -/
theorem boot_of_length_le {image : List Byte} (h : image.length ≤ 256) : boot image = some (State.reset.load image) :=
  if_pos h

/-- The first cycle's bytes: the image's first three, with the zeros of the cells beyond it. -/
theorem codeBytes_load_reset {image : List Byte} (h : image.length ≤ 256) :
    (State.reset.load image).codeBytes = (image ++ List.replicate 3 0).take 3 := by
  have hcells : (State.reset.load image).codeBytes = [0, 1, 2].map (State.reset.load image).mem.read := rfl
  rw [hcells]
  rcases image with _ | ⟨a, _ | ⟨b, _ | ⟨c, image⟩⟩⟩ <;> simp [State.load_read _ h, List.replicate]

/-- The first cycle of an image that begins with no opcode fetches that byte. -/
theorem fetch_load_of_lookup_none {b : Byte} {rest : List Byte} (h : (b :: rest).length ≤ 256) (hl : lookup b = none) :
    fetch (State.reset.load (b :: rest)) = .unknown b := by
  have hpc : (State.reset.load (b :: rest)).pc.toNat = 0 := rfl
  have hread : (State.reset.load (b :: rest)).mem.read 0 = b := State.load_read _ h 0
  rw [fetch_of_lookup_none (by omega) (by rw [hpc, hread, hl]), hpc, hread]

/-- No instruction is longer than three bytes (R51). -/
theorem encode_length_le (i : Instr) : (encode i).length ≤ 3 := by
  rw [encode_length, Instr.length, Nat.add_comm]
  exact Nat.succ_le_succ i.opcode.nops_le_two

/-- The first cycle of an image that begins with an instruction runs that instruction. -/
theorem step_load_encode {i : Instr} {rest : List Byte} (h : (encode i ++ rest).length ≤ 256) :
    step (State.reset.load (encode i ++ rest)) = exec i (State.reset.load (encode i ++ rest)) := by
  refine stepRunsTheDecodedInstruction _ i ((rest ++ List.replicate 3 0).take (3 - (encode i).length)) rfl ?_
  rw [codeBytes_load_reset h, List.append_assoc, List.take_append, List.take_of_length_le (encode_length_le i)]
  exact decode_encode_append i _

/-- Settles O55: the pc is 0 after boot, where the load puts the image's first byte; HLT is the instruction whose effect is
written out. -/
theorem executionStartsAtAddressZero : Obligations.ExecutionStartsAtAddressZero := by
  intro image s h
  obtain ⟨hlen, rfl⟩ := boot_some h
  refine ⟨rfl, rfl, ?_, ?_, ?_⟩
  · rintro b rest rfl hl
    exact step_of_unknown rfl (fetch_load_of_lookup_none hlen hl)
  · rintro rest rfl
    exact step_load_encode (i := .hlt) hlen
  · rintro i rest rfl
    exact step_load_encode hlen

/-- A run of one cycle is a cycle. -/
theorem runFor_one (s : State) : runFor 1 s = step s := by
  obtain ⟨t, ht⟩ := step_answers s
  rw [ht, runFor_succ ht, runFor]

/-- A load is performed exactly before the first step, for an image that fits in memory (R163, R141). -/
theorem perform_load_ne_none_iff {image : List Byte} {c : Session} :
    perform (.load image) c ≠ none ↔ c.phase = .beforeFirstStep ∧ image.length ≤ 256 := by
  simp [perform, and_comm]

/-- Everything a load that is performed can do. -/
theorem perform_load_cases {image : List Byte} {c d : Session} (h : perform (.load image) c = some (.next d)) :
    image.length ≤ 256 ∧ c.phase = .beforeFirstStep ∧ d = { c with engine := c.engine.load image } := by
  obtain ⟨htr, -⟩ | ⟨image', htr, hlen, hphase, hd⟩ | ⟨n, ⟨htr, -⟩ | htr, -⟩ := perform_cases h
  all_goals cases htr
  exact ⟨hlen, hphase, hd⟩

/-- Settles O56: boot is the load of the reset state, which gives every cell; the one transaction besides reset that a session
makes after a step is a run of cycles. -/
theorem bootLoadsTheImage : Obligations.BootLoadsTheImage := by
  refine ⟨fun image => ⟨fun hlen => ?_, fun hlen => if_neg (by omega), fun c => ⟨perform_load_ne_none_iff, fun d h => ?_⟩⟩,
    fun c d h => ?_, fun n c d h => ?_, fun tr c d h hc htr => ?_⟩
  · exact ⟨_, boot_of_length_le hlen, fun a _ => State.load_read _ hlen a, rfl, if_pos ⟨hlen, rfl⟩⟩
  · obtain ⟨hlen, -, rfl⟩ := perform_load_cases h
    exact ⟨rfl, rfl, fun a _ => State.load_read _ hlen a⟩
  · obtain ⟨hrun, hphase⟩ := Session.runFor_cases (Option.some.inj h)
    exact ⟨(runFor_one _).symm.trans hrun, hphase⟩
  · obtain ⟨hrun, hphase⟩ := Session.runFor_cases (Option.some.inj h)
    exact ⟨hrun, fun hn => hphase.trans (if_neg (by omega))⟩
  · obtain ⟨rfl, -⟩ | ⟨image, -, -, hbefore, -⟩ | ⟨n, -, hrun, hphase⟩ := perform_cases h
    · exact absurd rfl htr
    · cases hc.symm.trans hbefore
    · exact ⟨by rw [hphase, hc, ite_self], n, hrun⟩

end Sys2Proof.Machine
end
